-- ==== Sys2Proof/Syntax.lean ====
section
/-! DEFINITION. The commands of the HTU21D-CCU: one constructor for each row of the opcode table
(R83).  A command word has no operand fields (R84, R86), so no constructor has arguments; operands
are read from `ARG0` and `ARG1` when the command runs.  The host's accesses, which carry command
words to the block, are in Machine/Access.lean. -/

namespace Sys2Proof

/-- The thirteen commands, in the order of the opcode map (R83). -/
inductive Instr where
  | nop       -- 0x0  NOP       R191
  | crcClr    -- 0x1  CRC_CLR   R110
  | crcByte   -- 0x2  CRC_BYTE  R111
  | crcCmp    -- 0x3  CRC_CMP   R112
  | crcChk1   -- 0x4  CRC_CHK1  R113
  | crcChk2   -- 0x5  CRC_CHK2  R114
  | convT     -- 0x6  CONV_T    R140
  | convRh    -- 0x7  CONV_RH   R141
  | measT     -- 0x8  MEAS_T    R142
  | measRh    -- 0x9  MEAS_RH   R143
  | compRh    -- 0xA  COMP_RH   R161
  | dewpt     -- 0xB  DEWPT     R173
  | statClr   -- 0xC  STAT_CLR  R192
  deriving DecidableEq, Repr

end Sys2Proof
end

