-- ==== Sys2Proof/Word.lean ====
section
/-! DEFINITION. The word types of the HTU21D-CCU and the two plain value types its arithmetic uses:
an unnormalised exact fraction and the value a binary32 pattern stands for. -/

namespace Sys2Proof

/-- A host-visible register, a command word, a binary32 pattern: `REG_WIDTH` = 32 bits (R5). -/
abbrev Word := BitVec 32

/-- A byte (R6): a data byte, a check byte, a CRC remainder. -/
abbrev Byte := BitVec 8

/-- A raw 16-bit measurement word, MSB first (R6, R130). -/
abbrev RawWord := BitVec 16

/-- An exact fraction `num / den`, not reduced.  R7: arithmetic in pseudocode is on integers and
rationals.  Every fraction the model builds has a positive denominator. -/
structure Frac where
  num : Int
  den : Nat
  deriving DecidableEq, Repr

/-- The value of a binary32 pattern (R9).  A finite value is kept as a whole number of units of
`2^-149`, the least subnormal, so that it is exact: `finite u` stands for `u * 2^-149`.
Both zeros are `finite 0`. -/
inductive F32 where
  | nan
  | inf (negative : Bool)
  | finite (units : Int)
  deriving DecidableEq, Repr

end Sys2Proof
end

