-- ==== Sys2Proof/Decode.lean ====
section
/-! DEFINITION. The command decoder (R80 to R83, R87), total on every 32-bit word, and after it the
encoder, written from the opcode map of R83. -/

namespace Sys2Proof

/-- Why a command word is illegal (R87). -/
inductive DecodeError where
  /-- `RSV`, bits [31:4], is not 0. -/
  | reservedBits
  /-- `RSV` is 0 and `OPC` is 0xD, 0xE or 0xF. -/
  | reservedOpcode
  deriving DecidableEq, Repr

/-- The field `RSV`, bits [31:4] of a command word (R81). -/
def fieldRsv (v : Word) : BitVec 28 := v.extractLsb' 4 28

/-- The field `OPC`, bits [3:0] of a command word (R81). -/
def fieldOpc (v : Word) : BitVec 4 := v.extractLsb' 0 4

/-- The command an opcode stands for (R83). -/
def decodeOpc (opc : Nat) : Except DecodeError Instr :=
  match opc with
  | 0x0 => .ok .nop
  | 0x1 => .ok .crcClr
  | 0x2 => .ok .crcByte
  | 0x3 => .ok .crcCmp
  | 0x4 => .ok .crcChk1
  | 0x5 => .ok .crcChk2
  | 0x6 => .ok .convT
  | 0x7 => .ok .convRh
  | 0x8 => .ok .measT
  | 0x9 => .ok .measRh
  | 0xA => .ok .compRh
  | 0xB => .ok .dewpt
  | 0xC => .ok .statClr
  | _ => .error .reservedOpcode

/-- The decoder of R80: the reserved field is checked first, then the opcode. -/
def decode (v : Word) : Except DecodeError Instr :=
  if fieldRsv v ≠ 0 then .error .reservedBits else decodeOpc (fieldOpc v).toNat

/-- The opcode number of a command (R83). -/
def opcodeOf (i : Instr) : BitVec 4 :=
  match i with
  | .nop => 0x0
  | .crcClr => 0x1
  | .crcByte => 0x2
  | .crcCmp => 0x3
  | .crcChk1 => 0x4
  | .crcChk2 => 0x5
  | .convT => 0x6
  | .convRh => 0x7
  | .measT => 0x8
  | .measRh => 0x9
  | .compRh => 0xA
  | .dewpt => 0xB
  | .statClr => 0xC

/-- The command word of a command: 28 reserved zero bits above the opcode (R81, R83). -/
def encode (i : Instr) : Word := (0 : BitVec 28) ++ opcodeOf i

/-- The command read from a word whose low `nbits` bits are given, the bits above being 0.  A
command word is one 32-bit register value (R82), so the table's bit numbers are the word's own;
a number that does not fit in 32 bits is no command word. -/
def decodeTableWord (nbits w : Nat) : Option Instr :=
  if w % 2 ^ nbits < 2 ^ 32 then
    match decode (BitVec.ofNat 32 (w % 2 ^ nbits)) with
    | .ok i => some i
    | .error _ => none
  else none

end Sys2Proof
end

