-- ==== Sys2Proof/Machine/Binary32.lean ====
section
/-! DEFINITION. Exact fractions and binary32: reading a pattern (R9), the one correct rounding
`rne32` (R10) and the NaN the block writes (R11).  Everything is integer arithmetic, so that the
kernel can run it; Machine/RealSpec.lean states the same rules over the real numbers. -/

namespace Sys2Proof

/-! ## Exact fractions (R7) -/

/-- The whole number `n`. -/
def Frac.ofInt (n : Int) : Frac := ⟨n, 1⟩

/-- Exact sum. -/
def Frac.add (a b : Frac) : Frac := ⟨a.num * b.den + b.num * a.den, a.den * b.den⟩

/-- Exact difference. -/
def Frac.sub (a b : Frac) : Frac := ⟨a.num * b.den - b.num * a.den, a.den * b.den⟩

/-- Exact product. -/
def Frac.mul (a b : Frac) : Frac := ⟨a.num * b.num, a.den * b.den⟩

end Sys2Proof

namespace Sys2Proof.Machine

/-! ## Reading a pattern (R9) -/

/-- The sign bit `s = b[31]`. -/
def f32Sign (b : Word) : Bool := b.getLsbD 31

/-- The exponent field `e = b[30:23]`. -/
def f32Exp (b : Word) : Nat := (b.extractLsb' 23 8).toNat

/-- The fraction field `f = b[22:0]`. -/
def f32Frac (b : Word) : Nat := (b.extractLsb' 0 23).toNat

/-- The magnitude of a finite pattern in units of `2^-149`: `f` for `e = 0`, else
`(2^23 + f) * 2^(e-150)`, which is `(2^23 + f) * 2^(e-1)` units (R9). -/
def f32Units (e f : Nat) : Nat := if e = 0 then f else (2 ^ 23 + f) * 2 ^ (e - 1)

/-- `finite(b)`: the exponent field is not 255 (R9). -/
def f32IsFinite (b : Word) : Bool := f32Exp b != 255

/-- `f32val(b)` (R9). -/
def f32val (b : Word) : F32 :=
  if f32Exp b = 255 then
    if f32Frac b = 0 then .inf (f32Sign b) else .nan
  else
    .finite (if f32Sign b then -(f32Units (f32Exp b) (f32Frac b) : Int)
             else (f32Units (f32Exp b) (f32Frac b) : Int))

/-- A finite value as a fraction: `u` units of `2^-149`. -/
def fracOfUnits (u : Int) : Frac := ⟨u, 2 ^ 149⟩

/-! ## Rounding to nearest, ties to even (R10) -/

/-- `a / d` rounded to the nearest whole number, ties to even. -/
def roundHalfEven (a d : Nat) : Nat :=
  if 2 * (a % d) < d then a / d
  else if 2 * (a % d) > d then a / d + 1
  else a / d + a / d % 2

/-- The exponent of the spacing of binary32 values, in units of `2^-149`, near a magnitude of
`q` units: 0 below `2^24` units, and one more for each doubling above. -/
def f32Spacing (q : Nat) : Nat := Nat.log2 q - 23

/-- The low 31 bits of the binary32 pattern nearest `a / d` units.  The significand is rounded to
a multiple of the spacing; adding it to the exponent's place carries into the exponent by itself.
A magnitude that rounds to `2^128` or more gives the pattern of infinity. -/
def f32RoundMag (a d : Nat) : Nat :=
  let k := f32Spacing (a / d)
  min (k * 2 ^ 23 + roundHalfEven a (d * 2 ^ k)) 0x7F800000

/-- `rne32(q)` for the fraction `q` (R10): `+0` for 0, else the sign of `q` and the rounded
magnitude. -/
def rne32 (q : Frac) : Word :=
  if q.num = 0 then 0
  else
    BitVec.ofNat 32
      ((if q.num < 0 then 2 ^ 31 else 0) + f32RoundMag (q.num.natAbs * 2 ^ 149) q.den)

/-- `QNAN`, the only NaN the block writes (R11), but for the values `dp_impl` may give outside the
rated range, where the model follows P3 of R172 (log entry 22). -/
def qnan : Word := 0x7FC00000

end Sys2Proof.Machine
end

