-- ==== Sys2Proof/Machine/Access.lean ====
section
/-! DEFINITION. What the outside world can do to the block (R50 to R58, R216, R230): host accesses
to the register window, the reset input and power-up, as plain data. -/

namespace Sys2Proof.Machine

/-- The eight 32-bit places of the register window (R51). -/
inductive HostReg where
  | cmd        -- offset 0x00
  | arg0       -- offset 0x04
  | arg1       -- offset 0x08
  | res0       -- offset 0x0C
  | res1       -- offset 0x10
  | status     -- offset 0x14
  | crcacc     -- offset 0x18
  | reserved   -- offset 0x1C
  deriving DecidableEq, Repr

/-- The width of a host access (R52, R53). -/
inductive AccessWidth where
  | w8
  | w16
  | w32
  | wider
  deriving DecidableEq, Repr

/-- A host variable `$x` of the host assembly (R88), by number.  It is host state, not block
state. -/
abbrev HostVar := Nat

/-- The data of a host write: a 32-bit literal or a host variable (R88). -/
inductive Source where
  | lit (v : Word)
  | var (x : HostVar)
  deriving DecidableEq, Repr

/-- One thing the outside does to the block.  Addresses are host addresses (R50). -/
inductive HostEvent where
  /-- `$x <- HostRead`, at host address `addr` (R55, R88). -/
  | read (width : AccessWidth) (addr : Nat) (x : HostVar)
  /-- `HostWrite`, at host address `addr` (R56, R88). -/
  | write (width : AccessWidth) (addr : Nat) (src : Source)
  /-- The reset input is driven: `true` asserts it, `false` releases it (R230). -/
  | resetLine (asserted : Bool)
  /-- A host write of `v` to `CMD` during which reset arrives (R230). -/
  | cmdWriteCutByReset (v : Word)
  /-- Power is lost and comes back (R216, R230). -/
  | powerUp
  deriving DecidableEq, Repr

/-- The offset of a register in the window (R51). -/
def regOffset (r : HostReg) : Nat :=
  match r with
  | .cmd => 0x00
  | .arg0 => 0x04
  | .arg1 => 0x08
  | .res0 => 0x0C
  | .res1 => 0x10
  | .status => 0x14
  | .crcacc => 0x18
  | .reserved => 0x1C

/-- The register at an offset, where one begins there (R51). -/
def regAtOffset (off : Nat) : Option HostReg :=
  match off with
  | 0x00 => some .cmd
  | 0x04 => some .arg0
  | 0x08 => some .arg1
  | 0x0C => some .res0
  | 0x10 => some .res1
  | 0x14 => some .status
  | 0x18 => some .crcacc
  | 0x1C => some .reserved
  | _ => none

/-- `a` is in the window at `base` (R50). -/
def inWindow (base a : Nat) : Bool := decide (base ≤ a) && decide (a < base + 32)

end Sys2Proof.Machine
end

