-- ==== Sys2Proof/Machine/State.lean ====
section
/-! DEFINITION. The state of the machine, the reasons a step can stop, and the state after reset.
The first ten fields are the architectural state of R20, exactly.  The last five are the model's
own: where the platform put the window, which dew-point unit the block has, the level of the reset
input, the host's outstanding events and the host's variables. -/

namespace Sys2Proof.Machine

/-- The machine.  The block's fields are R20's; no other state is in the block (R37). -/
structure State where
  /-- `ARG0`, the first operand register (R22). -/
  arg0 : Word
  /-- `ARG1`, the second operand register (R23). -/
  arg1 : Word
  /-- `RES0`, the primary result, a binary32 pattern (R24). -/
  res0 : Word
  /-- `RES1`, the fixed-point result of the last conversion (R25). -/
  res1 : Word
  /-- `STATUS.CODE`, bits [2:0] (R26). -/
  code : BitVec 3
  /-- `STATUS.CRC_OK`, bit [4] (R26, R27). -/
  crcOk : Bool
  /-- `STATUS.STICKY`, bit [5] (R26, R28). -/
  sticky : Bool
  /-- `STATUS.TAG`, bits [7:6] (R26, R29). -/
  tag : BitVec 2
  /-- `STATUS.CALC`, bits [15:8] (R26, R30). -/
  calcCrc : Byte
  /-- `CRCACC.ACC`, bits [7:0]: the streaming CRC remainder (R32). -/
  acc : Byte
  /-- MODEL's own: the parameter `BASE_ADDR` (R5, R50, R64) divided by 32.  No step changes it. -/
  basePage : Nat
  /-- MODEL's own: which dew-point unit the block was built with, by number: the parameters
  `dp_impl` and `DP_TOL` (R5, R172).  No step changes it.  Two blocks with different numbers need not
  give the same dew-point bits (log entry 20). -/
  dewUnit : Nat
  /-- MODEL's own: the reset input is asserted (R230). -/
  inReset : Bool
  /-- MODEL's own: what the outside will do next, oldest first (R66). -/
  pending : List HostEvent
  /-- MODEL's own: the words the host's reads returned, each with the host variable it went to,
  newest first (R55, R88). -/
  reads : List (HostVar × Word)
  deriving DecidableEq, Repr

/-- Why a step stops with a fault.  In each case the spec gives the host no step. -/
inductive Fault where
  /-- An 8-bit or 16-bit host access (R53, no step).  Raised by `selectReg`.  Safe. -/
  | narrowAccess
  /-- A host access wider than 32 bits (R53, no step).  Raised by `selectReg`.  Safe. -/
  | wideAccess
  /-- A 32-bit host access at an offset that is no multiple of 4 (R53, no step).
  Raised by `selectReg`.  Safe. -/
  | misalignedAccess
  /-- A host access outside the 32-byte window (R50, R52; I12 of 93_implementation_defined.md).
  Raised by `selectReg`.  Safe. -/
  | outsideWindow
  /-- A host access while reset is asserted (R230, no step).  Raised by `performEvent`.  Safe. -/
  | accessInReset
  /-- The host program writes a host variable that no earlier read has set, so the access has no
  data (R88 gives it none).  Raised by `performEvent`.  Safe. -/
  | hostVariableUnset
  deriving DecidableEq, Repr

/-- Why a step is refused. -/
inductive Refusal where
  /-- A command with no meaning in the model.  No command is refused.  Safe. -/
  | notModelled (mnemonic : String)
  deriving DecidableEq, Repr

/-- `BASE_ADDR`: a multiple of 32 (R5). -/
def State.baseAddr (s : State) : Nat := 32 * s.basePage

/-- The state right after reset (R39): every field of the block is 0.  The model's own fields: the
window is at address 0 (log entry 2), the dew-point unit is number 0 (log entry 20), reset has been released, the host has issued nothing and
has read nothing (log entry 1). -/
def State.reset : State where
  arg0 := 0
  arg1 := 0
  res0 := 0
  res1 := 0
  code := 0
  crcOk := false
  sticky := false
  tag := 0
  calcCrc := 0
  acc := 0
  basePage := 0
  dewUnit := 0
  inReset := false
  pending := []
  reads := []

end Sys2Proof.Machine
end

