-- ==== Sys2Proof/Machine/Flags.lean ====
section
/-! DEFINITION. The outcome codes (R200), the computation of every field of `STATUS`, and the words
`STATUS` and `CRCACC` read as (R26, R31, R32, R55). -/

namespace Sys2Proof.Machine

/-- `CODE` 0, success (R26, R200). -/
def codeOk : BitVec 3 := 0

/-- `CODE` 1, the computed CRC differs from the expected byte (R26, R200). -/
def codeCrcErr : BitVec 3 := 1

/-- `CODE` 2, an illegal command word (R26, R200). -/
def codeIllegal : BitVec 3 := 2

/-- `CODE` 3, an operand outside the command's domain (R26, R200). -/
def codeDomain : BitVec 3 := 3

/-- `STICKY` after `report(code)`: set by a code other than OK, else kept (R28, R201). -/
def stickyAfter (code : BitVec 3) (sticky : Bool) : Bool := sticky || code != codeOk

/-- `CRC_OK` of a comparison: 1 when the computed CRC equals the expected byte (R27). -/
def crcOkOf (computed expected : Byte) : Bool := computed == expected

/-- The code of a comparison: OK on a match, else CRC_ERR (R200). -/
def crcCodeOf (computed expected : Byte) : BitVec 3 :=
  if computed == expected then codeOk else codeCrcErr

/-- The `STATUS` word: `zext_32(CALC ++ TAG ++ STICKY ++ CRC_OK ++ 0b0 ++ CODE)` (R55). -/
def statusWord (s : State) : Word :=
  (s.calcCrc ++ s.tag ++ BitVec.ofBool s.sticky ++ BitVec.ofBool s.crcOk ++ (0 : BitVec 1)
    ++ s.code).setWidth 32

/-- The `CRCACC` word: `zext_32(ACC)` (R32, R55). -/
def crcaccWord (s : State) : Word := s.acc.setWidth 32

end Sys2Proof.Machine
end

