-- ==== Sys2Proof/Machine/Operands.lean ====
section
/-! DEFINITION. The operand formats: which bits of `ARG0` and `ARG1` a command reads (R84 to R86),
and the raw word's mask and tag (R130, R134). -/

namespace Sys2Proof.Machine

/-- The field at bits [7:0] of `ARG0`: `CK` of the formats `B3` and `B2`, `D` of `B1` (R84). -/
def argLowByte (a : Word) : Byte := a.extractLsb' 0 8

/-- The field `D0` at bits [15:8] of `ARG0`, formats `B3` and `B2` (R84). -/
def argD0 (a : Word) : Byte := a.extractLsb' 8 8

/-- The field `D1` at bits [23:16] of `ARG0`, format `B3` (R84). -/
def argD1 (a : Word) : Byte := a.extractLsb' 16 8

/-- The field `W` at bits [15:0] of `ARG0`, format `W16` (R84). -/
def argRaw (a : Word) : RawWord := a.extractLsb' 0 16

/-- The raw word of a three-byte response, `ARG0[23:8]` = `D1 ++ D0` (R142, R143). -/
def argResponseRaw (a : Word) : RawWord := a.extractLsb' 8 16

/-- The masked word `m = W & 0xFFFC` (R130). -/
def maskRaw (w : RawWord) : RawWord := w &&& 0xFFFC

/-- The status tag `W[1:0]` (R134). -/
def tagOf (w : RawWord) : BitVec 2 := w.extractLsb' 0 2

/-- A three-byte response as `ARG0` holds it: `0x00 ++ MSB ++ LSB ++ CRC` (R61). -/
def packB3 (d1 d0 ck : Byte) : Word := (0 : Byte) ++ d1 ++ d0 ++ ck

/-- A data byte and its check byte as `ARG0` holds them (R84, format `B2`). -/
def packB2 (d0 ck : Byte) : Word := (0 : BitVec 16) ++ d0 ++ ck

/-- One byte as `ARG0` holds it (R84, format `B1`). -/
def packB1 (d : Byte) : Word := (0 : BitVec 24) ++ d

/-- A raw word as `ARG0` holds it (R84, format `W16`). -/
def packW16 (w : RawWord) : Word := (0 : BitVec 16) ++ w

end Sys2Proof.Machine
end

