-- ==== Sys2Proof/Machine/Ops.lean ====
section
/-! DEFINITION. The shared operations: reporting an outcome (the block's one form of exception,
R201, R204, R205), the results of a conversion and of a CRC comparison, reading a register, the
admission of a host access, and reset. -/

namespace Sys2Proof.Machine

/-! ## Outcomes -/

/-- `report(code)` (R201): `CODE` takes the code, and a code other than OK sets `STICKY`. -/
def report (code : BitVec 3) (s : State) : State :=
  { s with code := code, sticky := stickyAfter code s.sticky }

/-- `Illegal(v)` (R203): an illegal word reports ILLEGAL and does nothing else.  The word is not
kept. -/
def illegalWord (s : State) : State := report codeIllegal s

/-- The DOMAIN outcome of `COMP_RH` and `DEWPT` (R161, R173): `RES0` takes `QNAN`. -/
def domainError (s : State) : State := report codeDomain { s with res0 := qnan }

/-! ## Results -/

/-- `to_u32(z)`: the 32-bit two's-complement pattern of an integer (R7). -/
def toU32 (z : Int) : Word := BitVec.ofInt 32 z

/-- What a conversion writes: `RES1`, `RES0` and `TAG` (R132 to R134).  `fx` is 6,553,600 times
the exact value and `w` the raw word, unmasked. -/
def writeConversion (fx : Int) (w : RawWord) (s : State) : State :=
  { s with res1 := toU32 fx, res0 := rne32 ⟨fx, 6553600⟩, tag := tagOf w }

/-- What a CRC comparison writes before it reports: `CALC` and `CRC_OK` (R112 to R114). -/
def writeCrc (computed expected : Byte) (s : State) : State :=
  { s with calcCrc := computed, crcOk := crcOkOf computed expected }

/-- A CRC comparison whole: `CALC`, `CRC_OK`, then OK or CRC_ERR (R112 to R114). -/
def compareCrc (computed expected : Byte) (s : State) : State :=
  report (crcCodeOf computed expected) (writeCrc computed expected s)

/-! ## The register window -/

/-- What a host read of a register returns (R51, R55). -/
def readReg (r : HostReg) (s : State) : Word :=
  match r with
  | .cmd => 0
  | .arg0 => s.arg0
  | .arg1 => s.arg1
  | .res0 => s.res0
  | .res1 => s.res1
  | .status => statusWord s
  | .crcacc => crcaccWord s
  | .reserved => 0

/-- Admits a host access or says why it has no step (R50, R52, R53): it must be 32 bits wide,
inside the window and at an offset that is a multiple of 4.  The answer is the register. -/
def selectReg (base : Nat) (width : AccessWidth) (addr : Nat) : Except Fault HostReg :=
  match width with
  | .w8 => .error .narrowAccess
  | .w16 => .error .narrowAccess
  | .wider => .error .wideAccess
  | .w32 =>
    if inWindow base addr then
      match regAtOffset (addr - base) with
      | some r => .ok r
      | none => .error .misalignedAccess
    else .error .outsideWindow

/-- The host keeps the word a read returned in a host variable (R88). -/
def keepRead (x : HostVar) (v : Word) (s : State) : State :=
  { s with reads := (x, v) :: s.reads }

/-- The value a host variable last took, where one has been read (R88). -/
def lookupVar (x : HostVar) (reads : List (HostVar × Word)) : Option Word :=
  match reads with
  | [] => none
  | (y, v) :: rest => if y = x then some v else lookupVar x rest

/-- The data of a host write (R88). -/
def sourceValue (src : Source) (s : State) : Option Word :=
  match src with
  | .lit v => some v
  | .var x => lookupVar x s.reads

/-! ## Reset (R39, R230) -/

/-- Every field of the block takes its reset value (R39).  What is the host's own stays. -/
def resetBlock (s : State) : State :=
  { s with arg0 := 0, arg1 := 0, res0 := 0, res1 := 0, code := 0, crcOk := false,
           sticky := false, tag := 0, calcCrc := 0, acc := 0 }

/-- Reset is asserted (R230).  That the fields take their reset values at once, and not only at
the release, cannot be observed (log entry 3). -/
def assertReset (s : State) : State := { resetBlock s with inReset := true }

/-- Reset is released (R230): every field holds its reset value.  Releasing an input that is not
asserted changes nothing. -/
def releaseReset (s : State) : State :=
  if s.inReset then { resetBlock s with inReset := false } else s

/-- Power comes back (R216, R230): power-up acts as a reset.  The level of the reset input is the
platform's and stays. -/
def powerUp (s : State) : State := resetBlock s

end Sys2Proof.Machine
end

