-- ==== Sys2Proof/Machine/Control.lean ====
section
/-! DEFINITION. The control commands (R191, R192). -/

namespace Sys2Proof.Machine

/-- `NOP` (R191): no state changes, `CODE` included. -/
def execNop (s : State) : Host.Outcome State Fault Refusal := .next s

/-- `STAT_CLR` (R192): the one command that clears `STICKY`. -/
def execStatClr (s : State) : Host.Outcome State Fault Refusal :=
  .next (report codeOk { s with sticky := false })

end Sys2Proof.Machine
end

