-- ==== Sys2Proof/Machine/Convert.lean ====
section
/-! DEFINITION. The commands of the conversion unit (R140 to R143). -/

namespace Sys2Proof.Machine

/-- `T_fx(m) = 17572 * m - 307036160`, 6,553,600 times the temperature in degrees Celsius, of the
masked word of `w` (R130, R132). -/
def tempFx (w : RawWord) : Int := 17572 * ((maskRaw w).toNat : Int) - 307036160

/-- `RH_fx(m) = 12500 * m - 39321600`, 6,553,600 times the relative humidity in percent, of the
masked word of `w` (R130, R132). -/
def humidityFx (w : RawWord) : Int := 12500 * ((maskRaw w).toNat : Int) - 39321600

/-- `CONV_T` (R140). -/
def execConvT (s : State) : Host.Outcome State Fault Refusal :=
  .next (report codeOk (writeConversion (tempFx (argRaw s.arg0)) (argRaw s.arg0) s))

/-- `CONV_RH` (R141). -/
def execConvRh (s : State) : Host.Outcome State Fault Refusal :=
  .next (report codeOk (writeConversion (humidityFx (argRaw s.arg0)) (argRaw s.arg0) s))

/-- A response's CRC check and then its conversion (R142, R143): the CRC covers the two data bytes
as sent, tag included, and a mismatch leaves `RES0`, `RES1` and `TAG` as they were. -/
def checkThenConvert (fx : RawWord → Int) (s : State) : State :=
  if crc8 [argD1 s.arg0, argD0 s.arg0] = argLowByte s.arg0 then
    compareCrc (crc8 [argD1 s.arg0, argD0 s.arg0]) (argLowByte s.arg0)
      (writeConversion (fx (argResponseRaw s.arg0)) (argResponseRaw s.arg0) s)
  else
    compareCrc (crc8 [argD1 s.arg0, argD0 s.arg0]) (argLowByte s.arg0) s

/-- `MEAS_T` (R142). -/
def execMeasT (s : State) : Host.Outcome State Fault Refusal := .next (checkThenConvert tempFx s)

/-- `MEAS_RH` (R143). -/
def execMeasRh (s : State) : Host.Outcome State Fault Refusal := .next (checkThenConvert humidityFx s)

end Sys2Proof.Machine
end

