-- ==== Sys2Proof/Machine/Crc.lean ====
section
/-! DEFINITION. The commands of the CRC unit (R110 to R114). -/

namespace Sys2Proof.Machine

/-- `CRC_CLR` (R110): the accumulator takes the initial remainder 0. -/
def execCrcClr (s : State) : Host.Outcome State Fault Refusal :=
  .next (report codeOk { s with acc := 0 })

/-- `CRC_BYTE` (R111): one byte of the stream; `CALC` takes the new `ACC`. -/
def execCrcByte (s : State) : Host.Outcome State Fault Refusal :=
  .next (report codeOk
    { s with acc := crc8Step s.acc (argLowByte s.arg0), calcCrc := crc8Step s.acc (argLowByte s.arg0) })

/-- `CRC_CMP` (R112): the accumulator against an expected byte. -/
def execCrcCmp (s : State) : Host.Outcome State Fault Refusal :=
  .next (compareCrc s.acc (argLowByte s.arg0) s)

/-- `CRC_CHK1` (R113): one data byte against its check byte. -/
def execCrcChk1 (s : State) : Host.Outcome State Fault Refusal :=
  .next (compareCrc (crc8 [argD0 s.arg0]) (argLowByte s.arg0) s)

/-- `CRC_CHK2` (R114): two data bytes against their check byte. -/
def execCrcChk2 (s : State) : Host.Outcome State Fault Refusal :=
  .next (compareCrc (crc8 [argD1 s.arg0, argD0 s.arg0]) (argLowByte s.arg0) s)

end Sys2Proof.Machine
end

