-- ==== Sys2Proof/Machine/Binary32Exact.lean ====
section
/-! DEFINITION. Facts about binary32 that the dew-point parameter's existence rests on: a value that
has a binary32 pattern is rounded to that pattern, and which whole multiples of powers of two have
one. -/

namespace Sys2Proof.Machine

/-- A multiple of the divisor is not rounded. -/
theorem roundHalfEven_mul (c d : Nat) (hd : 0 < d) : roundHalfEven (c * d) d = c := by
  have h0 : c * d % d = 0 := Nat.mul_mod_left c d
  simp [roundHalfEven, h0, Nat.mul_div_cancel c hd, hd]

/-- The spacing near the value of a pattern is the pattern's own. -/
theorem f32Spacing_units {e f : Nat} (hf : f < 2 ^ 23) : f32Spacing (f32Units e f) = e - 1 := by
  unfold f32Spacing f32Units
  split
  · rename_i h
    have : Nat.log2 f ≤ 23 := by
      rcases Nat.eq_zero_or_pos f with rfl | hpos
      · decide
      · have := (Nat.log2_lt (by omega)).2 hf
        omega
    omega
  · have hne : (2 ^ 23 + f) * 2 ^ (e - 1) ≠ 0 := by positivity
    have : Nat.log2 ((2 ^ 23 + f) * 2 ^ (e - 1)) = 23 + (e - 1) := by
      rw [Nat.log2_eq_iff hne]
      have hp : 0 < 2 ^ (e - 1) := by positivity
      rw [show 23 + (e - 1) + 1 = 24 + (e - 1) by omega, Nat.pow_add, Nat.pow_add 2 24]
      exact ⟨Nat.mul_le_mul_right _ (by omega), Nat.mul_lt_mul_of_pos_right (by omega) hp⟩
    omega

/-- A magnitude that has a finite pattern is rounded to that pattern. -/
theorem f32RoundMag_units {e f d : Nat} (hf : f < 2 ^ 23) (he : e < 255) (hd : 0 < d) :
    f32RoundMag (f32Units e f * d) d = e * 2 ^ 23 + f := by
  have hmin : e * 2 ^ 23 + f ≤ 0x7F800000 := by omega
  simp only [f32RoundMag, Nat.mul_div_cancel _ hd, f32Spacing_units hf]
  rcases Nat.eq_zero_or_pos e with rfl | hpos
  · simp [f32Units, roundHalfEven_mul f d hd]
    omega
  · have h1 : f32Units e f * d = (2 ^ 23 + f) * (d * 2 ^ (e - 1)) := by
      simp only [f32Units, show e ≠ 0 by omega, if_false]; ring
    rw [h1, roundHalfEven_mul _ _ (by positivity)]
    omega

/-- The fields of the pattern put together from a sign and a magnitude. -/
theorem f32_fields {e f : Nat} (hf : f < 2 ^ 23) (he : e < 256) (s : Bool) :
    f32Sign (BitVec.ofNat 32 ((if s then 2 ^ 31 else 0) + (e * 2 ^ 23 + f))) = s ∧
    f32Exp (BitVec.ofNat 32 ((if s then 2 ^ 31 else 0) + (e * 2 ^ 23 + f))) = e ∧
    f32Frac (BitVec.ofNat 32 ((if s then 2 ^ 31 else 0) + (e * 2 ^ 23 + f))) = f := by
  refine ⟨?_, ?_, ?_⟩
  · unfold f32Sign
    rw [BitVec.getLsbD_ofNat]
    simp only [Nat.testBit_eq_decide_div_mod_eq]
    cases s <;> simp <;> omega
  · unfold f32Exp
    rw [BitVec.extractLsb'_toNat, BitVec.toNat_ofNat, Nat.shiftRight_eq_div_pow]
    cases s <;> simp <;> omega
  · unfold f32Frac
    rw [BitVec.extractLsb'_toNat, BitVec.toNat_ofNat, Nat.shiftRight_eq_div_pow]
    cases s <;> simp <;> omega

/-- A whole number below `2^24` times a power of two below `2^231` is the value of a pattern. -/
theorem exists_f32Units (c j : Nat) (hc : c < 2 ^ 24) (hj : j ≤ 230) :
    ∃ e f : Nat, e < 255 ∧ f < 2 ^ 23 ∧ f32Units e f = c * 2 ^ j := by
  by_cases hsmall : c * 2 ^ j < 2 ^ 23
  · exact ⟨0, c * 2 ^ j, by omega, hsmall, by simp [f32Units]⟩
  · have hc0 : c ≠ 0 := by rintro rfl; simp at hsmall
    set p := Nat.log2 c with hp
    obtain ⟨hlo, hhi⟩ := (Nat.log2_eq_iff hc0).1 hp.symm
    have hp24 : p < 24 := by
      by_contra h
      have : 2 ^ 24 ≤ 2 ^ p := Nat.pow_le_pow_right (by norm_num) (by omega)
      omega
    have hpj : 23 ≤ p + j := by
      by_contra h
      have h1 : c * 2 ^ j < 2 ^ (p + 1) * 2 ^ j := Nat.mul_lt_mul_of_pos_right hhi (by positivity)
      rw [← Nat.pow_add] at h1
      have : 2 ^ (p + 1 + j) ≤ 2 ^ 23 := Nat.pow_le_pow_right (by norm_num) (by omega)
      omega
    have h23 : 2 ^ 23 = 2 ^ p * 2 ^ (23 - p) := by rw [← Nat.pow_add]; congr 1; omega
    have hlo' : 2 ^ 23 ≤ c * 2 ^ (23 - p) := by rw [h23]; exact Nat.mul_le_mul_right _ hlo
    have hhi' : c * 2 ^ (23 - p) < 2 ^ 24 := by
      have : 2 ^ 24 = 2 ^ (p + 1) * 2 ^ (23 - p) := by rw [← Nat.pow_add]; congr 1; omega
      rw [this]
      exact Nat.mul_lt_mul_of_pos_right hhi (by positivity)
    refine ⟨p + j - 22, c * 2 ^ (23 - p) - 2 ^ 23, by omega, by omega, ?_⟩
    rw [f32Units, if_neg (by omega), Nat.add_sub_cancel' hlo', Nat.mul_assoc, ← Nat.pow_add]
    congr 2
    omega

/-- A value that has a finite binary32 pattern is delivered exactly: `u` is the value in units of
`2^-149`, and `n / d` is the same value as a fraction. -/
theorem f32val_rne32_exact {n : Int} {d e f : Nat} (hd : 0 < d) (hf : f < 2 ^ 23) (he : e < 255)
    (h : n.natAbs * 2 ^ 149 = f32Units e f * d) :
    f32val (rne32 ⟨n, d⟩) = .finite (n.sign * f32Units e f) := by
  unfold rne32
  by_cases hn : n = 0
  · subst hn
    simp only [if_true, Int.sign_zero, zero_mul]
    decide
  · simp only [hn, if_false, h, f32RoundMag_units hf he hd]
    obtain ⟨h1, h2, h3⟩ := f32_fields hf (by omega : e < 256) (decide (n < 0))
    simp only [decide_eq_true_eq] at h1 h2 h3
    unfold f32val
    rw [h1, h2, h3, if_neg (by omega)]
    by_cases hneg : n < 0
    · simp [hneg, Int.sign_eq_neg_one_of_neg hneg]
    · simp [hneg, Int.sign_eq_one_of_pos (by omega : 0 < n)]

end Sys2Proof.Machine
end

