-- ==== Sys2Proof/Machine/RealSpec.lean ====
section
/-! DEFINITION. The exact mathematics the rules are written in: values of binary32 patterns as real
numbers (R9), what "correctly rounded" means (R10), the exact converted values (R131), the exact
compensated humidity (R160), the exact dew point (R170) and the contract of a dew-point function
(R172).  Nothing here is run; statements and the parameter's contract are written with it. -/

namespace Sys2Proof.Machine

/-! ## binary32 over the reals (R9, R10) -/

/-- The real number that `u` units of `2^-149` are. -/
noncomputable def realOfUnits (u : Int) : ℝ := (u : ℝ) / 2 ^ 149

/-- The real number a fraction is. -/
noncomputable def fracToReal (q : Frac) : ℝ := (q.num : ℝ) / (q.den : ℝ)

/-- `b` is finite and its value is `x` (R9). -/
def f32Is (b : Word) (x : ℝ) : Prop := ∃ u : Int, f32val b = .finite u ∧ realOfUnits u = x

/-- The value of the 31-bit magnitude pattern `m`, for `m` up to `0x7F800000`.  The formula gives
the pattern of infinity the value `2^128`, "the next power 2^128" of R10. -/
noncomputable def magnitudeValue (m : Nat) : ℝ :=
  realOfUnits (f32Units (m / 2 ^ 23) (m % 2 ^ 23))

/-- `b` is the binary32 pattern nearest `x`, ties to even (R10).  For `x = 0` it is `+0`.  Else its
sign is that of `x`, and its magnitude is strictly nearer `|x|` than every other magnitude up to
the pattern of infinity, or as near as another and even. -/
def IsRne (x : ℝ) (b : Word) : Prop :=
  (x = 0 → b = 0) ∧
  (x ≠ 0 →
    (f32Sign b = true ↔ x < 0) ∧
    b.toNat % 2 ^ 31 ≤ 0x7F800000 ∧
    ∀ m : Nat, m ≤ 0x7F800000 → m ≠ b.toNat % 2 ^ 31 →
      |magnitudeValue (b.toNat % 2 ^ 31) - abs x| < |magnitudeValue m - abs x| ∨
      (|magnitudeValue (b.toNat % 2 ^ 31) - abs x| = |magnitudeValue m - abs x| ∧
        b.toNat % 2 = 0))

/-- The correctly rounded binary32 pattern of a real number: the one pattern `IsRne` singles out
(R10, R175; log entry 14). -/
noncomputable def roundReal (x : ℝ) : Word := Classical.epsilon (IsRne x)

/-! ## Conversions (R131) -/

/-- `T(m) = -46.85 + 175.72 * (m / 2^16)`, degrees Celsius. -/
noncomputable def tempExact (m : Nat) : ℝ := -(4685 / 100) + 17572 / 100 * ((m : ℝ) / 2 ^ 16)

/-- `RH(m) = -6.00 + 125.00 * (m / 2^16)`, percent. -/
noncomputable def humidityExact (m : Nat) : ℝ := -6 + 125 * ((m : ℝ) / 2 ^ 16)

/-! ## Compensated humidity (R160) -/

/-- `comp(T, RH) = RH + (25 - T) * (-0.15)`. -/
noncomputable def compExact (T RH : ℝ) : ℝ := RH + (25 - T) * (-(15 / 100))

/-! ## Dew point (R12, R170) -/

/-- The constant `A = 8.1332`. -/
noncomputable def dewA : ℝ := 81332 / 10000

/-- The constant `B = 1762.39`. -/
noncomputable def dewB : ℝ := 176239 / 100

/-- The constant `C = 235.66`. -/
noncomputable def dewC : ℝ := 23566 / 100

/-- `log10`, the exact real function (R12). -/
noncomputable def log10 (x : ℝ) : ℝ := Real.logb 10 x

/-- `PP = 10^(A - B / (T + C))` (R170). -/
noncomputable def partialPressure (T : ℝ) : ℝ := (10 : ℝ) ^ (dewA - dewB / (T + dewC))

/-- `Td(T, RH) = -(B / (log10(RH * PP / 100) - A) + C)` (R170). -/
noncomputable def dewExact (T RH : ℝ) : ℝ :=
  -(dewB / (log10 (RH * partialPressure T / 100) - dewA) + dewC)

/-- The rated input range `R_DP` (R5). -/
def Rated (T RH : ℝ) : Prop := -50 ≤ T ∧ T ≤ 130 ∧ 1 / 100 ≤ RH ∧ RH ≤ 125

/-- The contract of a dew-point function with accuracy bound `tol` (R172): (P2) for operands in the
rated range the result is finite and within `tol` of the exact dew point.  (P1) is that it is a
function of the two patterns; (P3) is that nothing is said of other operands. -/
def DewPointConforms (tol : ℝ) (impl : Word → Word → Word) : Prop :=
  ∀ (a b : Word) (t h : Int), f32val a = .finite t → f32val b = .finite h →
    Rated (realOfUnits t) (realOfUnits h) →
    ∃ d : Int, f32val (impl a b) = .finite d ∧
      |realOfUnits d - dewExact (realOfUnits t) (realOfUnits h)| ≤ tol

/-- `dp_ref`: the reference choice of `dp_impl` for simulators and test vectors, the exact dew point
rounded once (R175).  It is not the block's function, and the model does not assume that the hardware
computes it.  On operands that are not finite, of which R175 says nothing, it is `QNAN` (log
entry 21). -/
noncomputable def dpRef (a b : Word) : Word :=
  match f32val a, f32val b with
  | .finite t, .finite h => roundReal (dewExact (realOfUnits t) (realOfUnits h))
  | _, _ => qnan

/-- A dew-point unit: the parameter `dp_impl` with its contract for some `DP_TOL`, positive and at
most 0.1 degrees Celsius (R5, R172). -/
structure DewPointUnit where
  impl : Word → Word → Word
  conforms : ∃ tol : ℝ, 0 < tol ∧ tol ≤ 1 / 10 ∧ DewPointConforms tol impl

/-- `DP_TOL` of a dew-point unit (R5). -/
noncomputable def DewPointUnit.tol (u : DewPointUnit) : ℝ := u.conforms.choose

end Sys2Proof.Machine
end

