-- ==== Sys2Proof/Machine/DewPointWitness.lean ====
section
/-! DEFINITION. A dew-point function that meets the contract of R172, so that the parameter of
Config.lean exists: the exact dew point rounded down to a sixteenth of a degree, found by exact
rational comparison.  It is NOT the block's function and nothing is claimed of the block from it;
it only shows that some function conforms. -/

namespace Sys2Proof.Machine

/-- The grid point `(k - 2048) / 16` degrees Celsius. -/
def gridPoint (k : Nat) : ℚ := ((k : ℚ) - 2048) / 16

/-- The exponent `B / (T + C) - B / (x + C)` that `log10(RH / 100)` must reach for the dew point to
be at least the grid point `x`; `t` is `T` in units of `2^-149`. -/
def gridExponent (t : Int) (k : Nat) : ℚ :=
  176239 / 100 / ((t : ℚ) / 2 ^ 149 + 23566 / 100) - 176239 / 100 / (gridPoint k + 23566 / 100)

/-- The dew point is at least the grid point, decided over the rationals. -/
def gridReached (t h : Int) (k : Nat) : Prop :=
  (10 : ℚ) ^ (gridExponent t k).num ≤ ((h : ℚ) / 2 ^ 149 / 100) ^ (gridExponent t k).den

/-- The greatest grid point the dew point reaches. -/
def gridDewPoint (a b : Word) : Word :=
  match f32val a, f32val b with
  | .finite t, .finite h =>
    rne32 ⟨(@Nat.findGreatest (gridReached t h) (fun _ => Rat.instDecidableLe _ _) 4400 : Int) - 2048, 16⟩
  | _, _ => qnan

/-- Every grid point is a binary32 value. -/
theorem gridPoint_is_binary32 (k : Nat) (hk : k ≤ 4400) :
    f32val (rne32 ⟨(k : Int) - 2048, 16⟩) = .finite (((k : Int) - 2048) * 2 ^ 145) := by
  have hc : ((k : Int) - 2048).natAbs < 2 ^ 24 := by omega
  obtain ⟨e, f, he, hf, hu⟩ := exists_f32Units ((k : Int) - 2048).natAbs 145 hc (by norm_num)
  rw [f32val_rne32_exact (by norm_num) hf he (by rw [hu]; ring), hu]
  push_cast
  rw [← mul_assoc, Int.sign_mul_abs]

/-- The logarithm in the dew-point formula, taken apart. -/
theorem log10_partialPressure (T RH : ℝ) (hRH : 0 < RH) :
    log10 (RH * partialPressure T / 100) - dewA = log10 (RH / 100) - dewB / (T + dewC) := by
  have h10 : (0 : ℝ) < 10 := by norm_num
  have hp : 0 < partialPressure T := Real.rpow_pos_of_pos h10 _
  have : RH * partialPressure T / 100 = RH / 100 * partialPressure T := by ring
  unfold log10
  rw [this, Real.logb_mul (by positivity) hp.ne', partialPressure,
    Real.logb_rpow h10 (by norm_num)]
  ring

/-- Bounds of `log10(RH / 100)` in the rated range. -/
theorem log10_rated {RH : ℝ} (h1 : 1 / 100 ≤ RH) (h2 : RH ≤ 125) :
    -4 ≤ log10 (RH / 100) ∧ log10 (RH / 100) ≤ 1 / 10 := by
  have hpos : 0 < RH / 100 := by linarith
  unfold log10
  constructor
  · rw [Real.le_logb_iff_rpow_le (by norm_num) hpos]
    have : (10 : ℝ) ^ (-4 : ℝ) = 1 / 10000 := by
      rw [show (-4 : ℝ) = ((-4 : ℤ) : ℝ) by norm_num, Real.rpow_intCast]; norm_num
    rw [this]; linarith
  · rw [Real.logb_le_iff_le_rpow (by norm_num) hpos]
    have h5 : (5 / 4 : ℝ) ≤ 10 ^ (1 / 10 : ℝ) := by
      refine le_of_pow_le_pow_left₀ (n := 10) (by norm_num) (by positivity) ?_
      rw [← Real.rpow_natCast (10 ^ (1 / 10 : ℝ)), ← Real.rpow_mul (by norm_num)]
      norm_num
    linarith

/-- In the rated range the denominator of the dew-point formula is positive, and a temperature `x`
above `-C` is at most the dew point exactly when the logarithm reaches the grid's exponent. -/
theorem le_dewExact_iff {T RH x : ℝ} (hr : Rated T RH) (hx : 0 < x + dewC) :
    x ≤ dewExact T RH ↔ dewB / (T + dewC) - dewB / (x + dewC) ≤ log10 (RH / 100) := by
  obtain ⟨hT1, hT2, hR1, hR2⟩ := hr
  have hB : 0 < dewB := by norm_num [dewB]
  have hTC : 0 < T + dewC := by unfold dewC; linarith
  have hlog := log10_rated hR1 hR2
  have hD : 0 < dewB / (T + dewC) - log10 (RH / 100) := by
    have : 1 ≤ dewB / (T + dewC) := by
      rw [le_div_iff₀ hTC]; unfold dewB dewC; linarith
    linarith [hlog.2]
  have hTd : dewExact T RH = dewB / (dewB / (T + dewC) - log10 (RH / 100)) - dewC := by
    unfold dewExact
    rw [log10_partialPressure T RH (by linarith),
      show log10 (RH / 100) - dewB / (T + dewC) = -(dewB / (T + dewC) - log10 (RH / 100)) by ring,
      div_neg]
    ring
  rw [hTd, le_sub_iff_add_le, le_div_iff₀ hD, ← le_div_iff₀' hx]
  constructor <;> intro h <;> linarith

/-- The rational test says what it is meant to: in the rated range, at a grid point above `-C`. -/
theorem gridReached_iff {t h : Int} (hr : Rated (realOfUnits t) (realOfUnits h)) (k : Nat) :
    gridReached t h k ↔ ((k : ℝ) - 2048) / 16 ≤ dewExact (realOfUnits t) (realOfUnits h) := by
  have hk : (0 : ℝ) ≤ k := Nat.cast_nonneg k
  have hx : 0 < ((k : ℝ) - 2048) / 16 + dewC := by unfold dewC; linarith
  rw [le_dewExact_iff hr hx]
  have he : ((gridExponent t k : ℚ) : ℝ) =
      dewB / (realOfUnits t + dewC) - dewB / (((k : ℝ) - 2048) / 16 + dewC) := by
    unfold gridExponent gridPoint dewB dewC realOfUnits
    push_cast
    ring
  have hH : 0 < realOfUnits h / 100 := by have := hr.2.2.1; linarith
  rw [← he]
  unfold gridReached log10
  rw [Real.le_logb_iff_rpow_le (by norm_num) hH]
  generalize gridExponent t k = r
  have hden : (r.den : ℝ) ≠ 0 := by exact_mod_cast r.den_nz
  have hpow : ((10 : ℝ) ^ (r : ℝ)) ^ r.den = (10 : ℝ) ^ r.num := by
    rw [← Real.rpow_natCast, ← Real.rpow_mul (by norm_num), ← Real.rpow_intCast]
    congr 1
    have := Rat.num_div_den r
    have h2 : (r : ℝ) = (r.num : ℝ) / (r.den : ℝ) := by exact_mod_cast this.symm
    rw [h2]; field_simp
  have hcast : ((10 : ℚ) ^ r.num ≤ ((h : ℚ) / 2 ^ 149 / 100) ^ r.den) ↔
      (10 : ℝ) ^ r.num ≤ (realOfUnits h / 100) ^ r.den := by
    unfold realOfUnits
    rw [← Rat.cast_le (K := ℝ)]
    push_cast
    rfl
  rw [hcast, ← hpow, pow_le_pow_iff_left₀ (by positivity) hH.le r.den_nz]

/-- The grid covers the dew points of the rated range. -/
theorem dewExact_rated_bounds {T RH : ℝ} (hr : Rated T RH) :
    -128 ≤ dewExact T RH ∧ dewExact T RH < 147 := by
  have hB : 0 < dewB := by norm_num [dewB]
  have hlog := log10_rated hr.2.2.1 hr.2.2.2
  have hTC : 0 < T + dewC := by have := hr.1; unfold dewC; linarith
  constructor
  · rw [le_dewExact_iff hr (by norm_num [dewC])]
    have h1 : dewB / (T + dewC) ≤ dewB / (-50 + dewC) :=
      div_le_div_of_nonneg_left hB.le (by norm_num [dewC]) (by linarith [hr.1])
    have h2 : dewB / (-50 + dewC) - dewB / (-128 + dewC) ≤ -4 := by norm_num [dewB, dewC]
    linarith [hlog.1]
  · rw [← not_le, le_dewExact_iff hr (by norm_num [dewC]), not_le]
    have h1 : dewB / (130 + dewC) ≤ dewB / (T + dewC) :=
      div_le_div_of_nonneg_left hB.le hTC (by linarith [hr.2.1])
    have h2 : 1 / 10 < dewB / (130 + dewC) - dewB / (147 + dewC) := by norm_num [dewB, dewC]
    linarith [hlog.2]

/-- The grid function meets the contract of R172 with a bound of 1/16 degree. -/
theorem gridDewPoint_conforms : DewPointConforms (1 / 16) gridDewPoint := by
  intro a b t h ha hb hr
  have hbounds := dewExact_rated_bounds hr
  have hP0 : gridReached t h 0 := (gridReached_iff hr 0).2 (by norm_num; exact hbounds.1)
  let P := gridReached t h
  let dec : DecidablePred P := fun _ => Rat.instDecidableLe _ _
  let k := @Nat.findGreatest P dec 4400
  have hk : k ≤ 4400 := @Nat.findGreatest_le P dec 4400
  have hge : P k := @Nat.findGreatest_spec 0 P dec 4400 (by norm_num) hP0
  have hlt : ¬ P (k + 1) := by
    intro hP
    rcases Nat.lt_or_ge 4400 (k + 1) with hk1 | hk1
    · have h1 := (gridReached_iff hr (k + 1)).1 hP
      have h2 : k = 4400 := by omega
      rw [h2] at h1
      norm_num at h1
      linarith [hbounds.2]
    · have := @Nat.le_findGreatest (k + 1) P dec 4400 hk1 hP
      omega
  replace hge := (gridReached_iff hr k).1 hge
  replace hlt := mt (gridReached_iff hr (k + 1)).2 hlt
  refine ⟨((k : Int) - 2048) * 2 ^ 145, ?_, ?_⟩
  · have hdef : gridDewPoint a b = rne32 ⟨(k : Int) - 2048, 16⟩ := by
      simp only [gridDewPoint, ha, hb]; rfl
    rw [hdef]
    exact gridPoint_is_binary32 k hk
  · have hval : realOfUnits (((k : Int) - 2048) * 2 ^ 145) = ((k : ℝ) - 2048) / 16 := by
      unfold realOfUnits; push_cast; ring
    rw [hval, abs_le]
    push_cast at hlt
    constructor <;> linarith

/-- A dew-point unit exists (R172). -/
def gridDewPointUnit : DewPointUnit where
  impl := gridDewPoint
  conforms := ⟨1 / 16, by norm_num, by norm_num, gridDewPoint_conforms⟩

end Sys2Proof.Machine
end

