-- ==== Sys2Proof/Config.lean ====
section
/-! DEFINITION. The parameters the spec leaves OPEN (R5), fixed for one block and unknown to every
proof.  `BASE_ADDR` is not here: it is a field of the state, so that statements hold for every
value of it (log entry 2).  The dew-point parameters are here, one unit for each number, and the
number is a field of the state: each block has a unit of its own (log entry 20). -/

namespace Sys2Proof

open Sys2Proof.Machine

/-- Some dew-point units, by number.  They have no body, so nothing is known of any of them but its
type: its function meets the contract of R172.  Nothing makes two of them equal.  The argument only
shows that such a unit exists. -/
opaque Config.someDewPointUnit [Inhabited DewPointUnit] : Nat → DewPointUnit

/-- The dew-point unit number `n` (R172).  That a block's unit is chosen by a number in its state is
the model's choice (log entry 20). -/
def Config.dewPointUnit (n : Nat) : DewPointUnit := @Config.someDewPointUnit ⟨gridDewPointUnit⟩ n

/-- `dp_impl` of unit `n`: the dew-point function of the two operand patterns (R5, R172).  Outside
the rated range its value is free (P3; log entry 6), any NaN included (log entry 22). -/
def Config.dpImpl (n : Nat) (a b : Word) : Word := (Config.dewPointUnit n).impl a b

/-- `DP_TOL` of unit `n`: the accuracy bound of its `dp_impl` in the rated range (R5, R172; log
entry 7). -/
noncomputable def Config.dpTol (n : Nat) : ℝ := (Config.dewPointUnit n).tol

/-- `CMD_LATENCY`: the time a command takes, in a unit the spec does not name.  No rule depends on
it (R5, R60, R246), and the model reads it nowhere. -/
opaque Config.cmdLatency : Nat

end Sys2Proof
end

