-- ==== Sys2Proof/Machine/EnvMath.lean ====
section
/-! DEFINITION. The commands of the environmental-math unit (R161, R173). -/

namespace Sys2Proof.Machine

/-- `h + (25 - t) * (-3/20)`, exactly (R160, R161).  The operands are in units of `2^-149`. -/
def compFrac (t h : Int) : Frac :=
  (fracOfUnits h).add (((Frac.ofInt 25).sub (fracOfUnits t)).mul ⟨-3, 20⟩)

/-- `COMP_RH` (R161). -/
def execCompRh (s : State) : Host.Outcome State Fault Refusal :=
  match f32val s.arg0, f32val s.arg1 with
  | .finite t, .finite h => .next (report codeOk { s with res0 := rne32 (compFrac t h) })
  | _, _ => .next (domainError s)

/-- `t + 235.66 = 0`; never so for a binary32 `t` (R173, R174). -/
def tempIsMinusC (t : Int) : Bool := ((fracOfUnits t).add ⟨23566, 100⟩).num == 0

/-- `log10(h / 100) = 1762.39 / (t + 235.66)`, the zero denominator.  R174: of all finite binary32
operands only `T = 204.9375` with `RH = 1,000,000` meet it, so it is tested by their patterns. -/
def dewDenominatorZero (a b : Word) : Bool := a == 0x434CF000 && b == 0x49742400

/-- The finite operands on which `DEWPT` has no value (R173). -/
def dewUndefined (a b : Word) (t h : Int) : Bool :=
  decide (h ≤ 0) || tempIsMinusC t || dewDenominatorZero a b

/-- `DEWPT` (R173).  Outside the rated range the value `dp_impl` gives may be any pattern, a NaN other
than `QNAN` included: the model follows P3 of R172 there, not R11 (log entry 22). -/
def execDewpt (s : State) : Host.Outcome State Fault Refusal :=
  match f32val s.arg0, f32val s.arg1 with
  | .finite t, .finite h =>
    if dewUndefined s.arg0 s.arg1 t h then .next (domainError s)
    else .next (report codeOk { s with res0 := Config.dpImpl s.dewUnit s.arg0 s.arg1 })
  | _, _ => .next (domainError s)

end Sys2Proof.Machine
end

