-- ==== Sys2Proof/Machine/Dispatch.lean ====
section
/-! DEFINITION. The meaning of every command: one arm for each constructor of Instr (R80). -/

namespace Sys2Proof.Machine

def exec (i : Instr) (s : State) : Host.Outcome State Fault Refusal :=
  match i with
  | .nop => Sys2Proof.Machine.execNop s
  | .crcClr => Sys2Proof.Machine.execCrcClr s
  | .crcByte => Sys2Proof.Machine.execCrcByte s
  | .crcCmp => Sys2Proof.Machine.execCrcCmp s
  | .crcChk1 => Sys2Proof.Machine.execCrcChk1 s
  | .crcChk2 => Sys2Proof.Machine.execCrcChk2 s
  | .convT => Sys2Proof.Machine.execConvT s
  | .convRh => Sys2Proof.Machine.execConvRh s
  | .measT => Sys2Proof.Machine.execMeasT s
  | .measRh => Sys2Proof.Machine.execMeasRh s
  | .compRh => Sys2Proof.Machine.execCompRh s
  | .dewpt => Sys2Proof.Machine.execDewpt s
  | .statClr => Sys2Proof.Machine.execStatClr s

end Sys2Proof.Machine
end

