-- ==== Sys2Proof/Machine/HostPort.lean ====
section
/-! DEFINITION. What the block does for each thing the outside does: running a command word (R60,
R80), a host write (R56, R58), a host read (R55), reset and power-up (R216, R230). -/

namespace Sys2Proof.Machine

/-- `Execute(v)` (R60, R80): a command word runs its command to completion, and an illegal one
reports ILLEGAL. -/
def execute (v : Word) (s : State) : Host.Outcome State Fault Refusal :=
  match decode v with
  | .ok i => exec i s
  | .error _ => .next (illegalWord s)

/-- `HostWrite` of `v` to a register (R51, R56): `CMD` runs the word, `ARG0` and `ARG1` take it,
and a write to a read-only register or the reserved place has no effect (R58). -/
def writeReg (r : HostReg) (v : Word) (s : State) : Host.Outcome State Fault Refusal :=
  match r with
  | .cmd => execute v s
  | .arg0 => .next { s with arg0 := v }
  | .arg1 => .next { s with arg1 := v }
  | .res0 => .next s
  | .res1 => .next s
  | .status => .next s
  | .crcacc => .next s
  | .reserved => .next s

/-- A host read (R55, R88): the host variable takes the register's word and the block is left as
it was. -/
def performRead (width : AccessWidth) (addr : Nat) (x : HostVar) (s : State) :
    Host.Outcome State Fault Refusal :=
  match selectReg s.baseAddr width addr with
  | .error f => .fault f
  | .ok r => .next (keepRead x (readReg r s) s)

/-- A host write (R56, R88). -/
def performWrite (width : AccessWidth) (addr : Nat) (src : Source) (s : State) :
    Host.Outcome State Fault Refusal :=
  match selectReg s.baseAddr width addr with
  | .error f => .fault f
  | .ok r =>
    match sourceValue src s with
    | none => .fault .hostVariableUnset
    | some v => writeReg r v s

/-- One event.  While reset is asserted no access is admitted (R230); a reset that arrives during
a `CMD` write wins, whatever the command would have done (R230); in reset there is no such write. -/
def performEvent (e : HostEvent) (s : State) : Host.Outcome State Fault Refusal :=
  match e with
  | .read width addr x => if s.inReset then .fault .accessInReset else performRead width addr x s
  | .write width addr src =>
    if s.inReset then .fault .accessInReset else performWrite width addr src s
  | .resetLine true => .next (assertReset s)
  | .resetLine false => .next (releaseReset s)
  | .cmdWriteCutByReset _ =>
    if s.inReset then .fault .accessInReset else .next (assertReset s)
  | .powerUp => .next (powerUp s)

/-- The host event that writes the command word whose low `nbits` bits are those of `w`, the bits
above being 0, to the `CMD` register of a window at `base`. -/
def commandEvent (base nbits w : Nat) : HostEvent :=
  .write .w32 (base + regOffset .cmd) (.lit (BitVec.ofNat 32 (w % 2 ^ nbits)))

end Sys2Proof.Machine
end

