-- ==== Sys2Proof/Machine/Step.lean ====
section
/-! DEFINITION. One step of the machine: the oldest outstanding event of the outside world, whole,
before the next (R60, R66).  The block fetches no instructions (R2, R34); its next instruction is
the command word the host writes next. -/

namespace Sys2Proof.Machine

/-- One step.  With no event outstanding the block holds its state (log entry 1). -/
def step (s : State) : Host.Outcome State Fault Refusal :=
  match s.pending with
  | [] => .next s
  | e :: rest => performEvent e { s with pending := rest }

/-- `s` with a host write of the given command word to `CMD` as the next event, and reset released,
so that the very next step runs that word. -/
def State.withFetchWord (s : State) (nbits w : Nat) : State :=
  { s with inReset := false, pending := commandEvent s.baseAddr nbits w :: s.pending }

end Sys2Proof.Machine
end

