-- ==== Sys2Proof/Machine/CrcSpec.lean ====
section
/-! DEFINITION. The CRC as R100 defines it: division of polynomials over GF(2). -/

namespace Sys2Proof.Machine

open Polynomial

/-- The polynomial a byte is: bit `i` is the coefficient of `x^i` (R100). -/
noncomputable def bytePoly (b : Byte) : Polynomial (ZMod 2) :=
  ∑ i ∈ Finset.range 8, if b.getLsbD i then X ^ i else 0

/-- `M(x)`: bit 7 of the first byte is the coefficient of the highest power, bit 0 of the last
byte that of `x^0` (R100). -/
noncomputable def messagePoly (bytes : List Byte) : Polynomial (ZMod 2) :=
  bytes.foldl (fun p b => p * X ^ 8 + bytePoly b) 0

/-- `P(x) = x^8 + x^5 + x^4 + 1`, 0x131 (R100). -/
noncomputable def crcPoly : Polynomial (ZMod 2) := X ^ 8 + X ^ 5 + X ^ 4 + 1

/-- `c` is `CRC(B)`: its polynomial is `(M(x) * x^8) mod P(x)` (R100). -/
def IsCrc (bytes : List Byte) (c : Byte) : Prop :=
  bytePoly c = (messagePoly bytes * X ^ 8) %ₘ crcPoly

end Sys2Proof.Machine
end

