-- ==== Sys2Proof/Machine/Platform.lean ====
section
/-! DEFINITION. Several blocks on one platform (R214): each has its own window and its own state,
and they share nothing.  The host's side is each block's own too: its outstanding events and its
variables are those of one block (log entry 23). -/

namespace Sys2Proof.Machine

/-- The blocks of a platform. -/
abbrev Platform := List State

/-- The windows lie apart: each block has a base of its own (R64, R214). -/
def Platform.windowsApart (p : Platform) : Prop := (p.map State.basePage).Nodup

/-- The block whose window holds host address `a`, by its place in the list (R50). -/
def Platform.ownerOf (p : Platform) (a : Nat) : Option Nat :=
  p.findIdx? (fun s => inWindow s.baseAddr a)

/-- One block of the platform takes a step, on its own events and with its own host variables.  That
the host has no order of events and no variables across blocks is the model's choice (log entry 23). -/
def Platform.stepBlock (p : Platform) (i : Nat) : Host.Outcome Platform Fault Refusal :=
  match p[i]? with
  | none => .next p
  | some s =>
    match step s with
    | .next t => .next (p.set i t)
    | .fault f => .fault f
    | .refused r => .refused r

end Sys2Proof.Machine
end

