-- ==== Sys2Proof/Machine/Assembly.lean ====
section
/-! DEFINITION. The host assembly (R88, R89): its statements, their encoding as host accesses, the
pseudo-statements and their expansions.  The block runs no program (R2); a program is a list of
host accesses the host issues in order (R66). -/

namespace Sys2Proof.Machine

/-- A statement of the host assembly: one host access (R88). -/
inductive Stmt where
  /-- `wr REG, V` -/
  | wr (r : HostReg) (v : Source)
  /-- `rd $x, REG` -/
  | rd (x : HostVar) (r : HostReg)
  /-- `cmd MNEMONIC` -/
  | cmd (i : Instr)
  deriving DecidableEq, Repr

/-- A pseudo-statement (R89).  Byte and raw-word operands are literals; the binary32 operands of
`comp` and `dewpt` are literals or host variables. -/
inductive Pseudo where
  | crcClr
  | crcByte (b : Byte)
  | crcCmp (c : Byte)
  | crcChk1 (d0 ck : Byte)
  | crcChk2 (d1 d0 ck : Byte)
  | convT (w : RawWord)
  | convRh (w : RawWord)
  | measT (d1 d0 ck : Byte)
  | measRh (d1 d0 ck : Byte)
  | comp (t rh : Source)
  | dewpt (t rh : Source)
  | statClr
  | nop
  deriving DecidableEq, Repr

/-- The expansion of a pseudo-statement (R89).  Bytes go to their places in `ARG0` as R84 gives
them. -/
def Pseudo.expand (p : Pseudo) : List Stmt :=
  match p with
  | .crcClr => [.cmd .crcClr]
  | .crcByte b => [.wr .arg0 (.lit (packB1 b)), .cmd .crcByte]
  | .crcCmp c => [.wr .arg0 (.lit (packB1 c)), .cmd .crcCmp]
  | .crcChk1 d0 ck => [.wr .arg0 (.lit (packB2 d0 ck)), .cmd .crcChk1]
  | .crcChk2 d1 d0 ck => [.wr .arg0 (.lit (packB3 d1 d0 ck)), .cmd .crcChk2]
  | .convT w => [.wr .arg0 (.lit (packW16 w)), .cmd .convT]
  | .convRh w => [.wr .arg0 (.lit (packW16 w)), .cmd .convRh]
  | .measT d1 d0 ck => [.wr .arg0 (.lit (packB3 d1 d0 ck)), .cmd .measT]
  | .measRh d1 d0 ck => [.wr .arg0 (.lit (packB3 d1 d0 ck)), .cmd .measRh]
  | .comp t rh => [.wr .arg0 t, .wr .arg1 rh, .cmd .compRh]
  | .dewpt t rh => [.wr .arg0 t, .wr .arg1 rh, .cmd .dewpt]
  | .statClr => [.cmd .statClr]
  | .nop => [.cmd .nop]

/-- The statement `cmd MNEMONIC` is `wr CMD, word(MNEMONIC)` (R88). -/
def Stmt.expandCmd (st : Stmt) : Stmt :=
  match st with
  | .wr r v => .wr r v
  | .rd x r => .rd x r
  | .cmd i => .wr .cmd (.lit (encode i))

/-- The host access a statement is, for a window at `base` (R88): 32 bits wide, at the register's
offset. -/
def Stmt.toEvent (base : Nat) (st : Stmt) : HostEvent :=
  match st with
  | .wr r v => .write .w32 (base + regOffset r) v
  | .rd x r => .read .w32 (base + regOffset r) x
  | .cmd i => .write .w32 (base + regOffset .cmd) (.lit (encode i))

/-- A program as the host issues it (R66, R88). -/
def assemble (base : Nat) (program : List Stmt) : List HostEvent :=
  program.map (Stmt.toEvent base)

/-- The host is about to issue a program, after what it has already issued. -/
def State.issue (s : State) (program : List Stmt) : State :=
  { s with pending := s.pending ++ assemble s.baseAddr program }

end Sys2Proof.Machine
end

