-- ==== Sys2Proof/WellFormed.lean ====
section
/-! DEFINITION. What is well formed: command words (R81, R87), base addresses (R5), host accesses
(R52) and host programs (R88, R89).  A command has no operand fields, so no term of Instr is ill
formed. -/

namespace Sys2Proof

open Sys2Proof.Machine

/-- A command word is legal: `RSV` is 0 and `OPC` is at most 0xC (R87). -/
def commandWordWf (v : Word) : Bool := fieldRsv v == 0 && decide ((fieldOpc v).toNat ≤ 0xC)

/-- A command is well formed when its word is legal.  Every command is. -/
def Instr.wf (i : Instr) : Bool := commandWordWf (encode i)

/-- A base address is a multiple of 32 (R5). -/
def baseAddrWf (base : Nat) : Bool := base % 32 == 0

/-- The access is 32 bits wide, inside the window, at a multiple of 4 (R52). -/
def accessWf (base : Nat) (width : AccessWidth) (addr : Nat) : Bool :=
  width == .w32 && inWindow base addr && (addr - base) % 4 == 0

/-- An event of the outside is well formed when its access, if it is one, is admitted. -/
def eventWf (base : Nat) (e : HostEvent) : Bool :=
  match e with
  | .read width addr _ => accessWf base width addr
  | .write width addr _ => accessWf base width addr
  | .resetLine _ => true
  | .cmdWriteCutByReset _ => true
  | .powerUp => true

/-- `REG` of the assembly is one of the seven named registers (R88). -/
def asmRegWf (r : HostReg) : Bool := r != .reserved

/-- A host variable has been read before it is written. -/
def sourceWf (known : List HostVar) (src : Source) : Bool :=
  match src with
  | .lit _ => true
  | .var x => known.contains x

/-- A statement names a register of the assembly and only host variables that are known. -/
def stmtWf (known : List HostVar) (st : Stmt) : Bool :=
  match st with
  | .wr r v => asmRegWf r && sourceWf known v
  | .rd _ r => asmRegWf r
  | .cmd i => Instr.wf i

/-- The host variables known after a statement. -/
def knownAfter (known : List HostVar) (st : Stmt) : List HostVar :=
  match st with
  | .wr _ _ => known
  | .rd x _ => x :: known
  | .cmd _ => known

/-- A program is well formed: every statement is, with the variables read before it. -/
def programWf (known : List HostVar) (program : List Stmt) : Bool :=
  match program with
  | [] => true
  | st :: rest => stmtWf known st && programWf (knownAfter known st) rest

end Sys2Proof
end

