-- ==== Sys2Proof/Safety.lean ====
section
/-! DEFINITION. The terms claims use: named start states (R234), the invariant every step keeps, the
commands and what they may write (R27 to R32, R38), and runs of host writes (R66). -/

namespace Sys2Proof.Machine

/-- The ten fields of the block (R20) are the same in both states. -/
def SameBlock (s t : State) : Prop :=
  s.arg0 = t.arg0 ∧ s.arg1 = t.arg1 ∧ s.res0 = t.res0 ∧ s.res1 = t.res1 ∧ s.code = t.code ∧
  s.crcOk = t.crcOk ∧ s.sticky = t.sticky ∧ s.tag = t.tag ∧ s.calcCrc = t.calcCrc ∧ s.acc = t.acc

/-- The model's own fields, the host's side, are the same in both states. -/
def SameHost (s t : State) : Prop :=
  s.basePage = t.basePage ∧ s.dewUnit = t.dewUnit ∧ s.inReset = t.inReset ∧ s.pending = t.pending ∧ s.reads = t.reads

/-- `ResetState` (R39, R234): every field of the block is 0. -/
def IsResetState (s : State) : Prop := SameBlock s State.reset

/-- `CleanEntry` (R234): `STICKY` is 0. -/
def CleanEntry (s : State) : Prop := s.sticky = false

/-- What every step keeps.  `CODE` is one of the four codes (R26); a code other than OK never
stands without `STICKY` (R28, R201); and `RES1` is 0 or a conversion's numerator, so it lies in the
range of R135. -/
def BlockInvariant (s : State) : Prop :=
  s.code.toNat ≤ 3 ∧
  (s.code ≠ codeOk → s.sticky = true) ∧
  (-307036160 ≤ s.res1.toInt ∧ s.res1.toInt ≤ 844492144)

/-- The command converts the raw word `w` as a temperature: `CONV_T`, or `MEAS_T` when the CRC of
its response matches (R140, R142). -/
def ConvertsTemp (i : Instr) (s : State) (w : RawWord) : Prop :=
  (i = .convT ∧ w = s.arg0.extractLsb' 0 16) ∨
  (i = .measT ∧ w = s.arg0.extractLsb' 8 16 ∧
    crc8 [s.arg0.extractLsb' 16 8, s.arg0.extractLsb' 8 8] = s.arg0.extractLsb' 0 8)

/-- The command converts the raw word `w` as a humidity: `CONV_RH`, or `MEAS_RH` when the CRC of its
response matches (R141, R143). -/
def ConvertsHumidity (i : Instr) (s : State) (w : RawWord) : Prop :=
  (i = .convRh ∧ w = s.arg0.extractLsb' 0 16) ∨
  (i = .measRh ∧ w = s.arg0.extractLsb' 8 16 ∧
    crc8 [s.arg0.extractLsb' 16 8, s.arg0.extractLsb' 8 8] = s.arg0.extractLsb' 0 8)

/-- The bits of `ARG0` a command reads: those of its operand format (R84, R85). -/
def operandBits (i : Instr) : Word :=
  match i with
  | .nop => 0
  | .crcClr => 0
  | .crcByte => 0x000000FF
  | .crcCmp => 0x000000FF
  | .crcChk1 => 0x0000FFFF
  | .crcChk2 => 0x00FFFFFF
  | .convT => 0x0000FFFF
  | .convRh => 0x0000FFFF
  | .measT => 0x00FFFFFF
  | .measRh => 0x00FFFFFF
  | .compRh => 0xFFFFFFFF
  | .dewpt => 0xFFFFFFFF
  | .statClr => 0

/-- The commands that read `ARG1`: those of format `F2` (R84, R85). -/
def readsArg1 (i : Instr) : Bool := i == .compRh || i == .dewpt

/-- The host writes registers one after another, each entirely before the next (R66). -/
def afterWrites (writes : List (HostReg × Word)) (s : State) : Host.Outcome State Fault Refusal :=
  match writes with
  | [] => .next s
  | (r, v) :: rest =>
    match writeReg r v s with
    | .next t => afterWrites rest t
    | .fault f => .fault f
    | .refused q => .refused q

/-- The host issues the expansion of a pseudo-statement before all else (R89), and `n` steps run. -/
def runPseudo (n : Nat) (p : Pseudo) (s : State) : Host.Outcome State Fault Refusal :=
  core.run n { s with pending := assemble s.baseAddr p.expand ++ s.pending }

/-- The host writes that stream bytes into the CRC unit (R111): each byte to `ARG0`, then
`CRC_BYTE`. -/
def streamWrites (bytes : List Byte) : List (HostReg × Word) :=
  bytes.flatMap (fun b => [(.arg0, packB1 b), (.cmd, encode .crcByte)])

end Sys2Proof.Machine
end

