-- ==== Sys2Proof/Certificates/Slice0/Obligations.lean ====
section
/-! DEFINITION. The statements for the provers.  Each docstring names the rules it formalises.
`Host.Outcome.next t` is a next state; a result written as a record update of `s` also says that
every field it does not name is unchanged, the host's side included. -/

open Sys2Proof Sys2Proof.Machine

/-! ## Steps, decoding, illegal words -/

/-- R60, R66, R80: when the next thing the host does is to write a word to `CMD`, outside reset, the
step is that command's meaning on the state with the access taken off the queue, or, for a word
that decodes to no command, the report of ILLEGAL.  The queue is the model's (log entry 1). -/
def Obligations.StepRunsTheCommandWord : Prop :=
  ∀ (s : State) (rest : List HostEvent) (src : Source) (v : Word),
    s.inReset = false → s.pending = .write .w32 (s.baseAddr + 0x00) src :: rest →
    sourceValue src s = some v →
    (∀ i, decode v = .ok i → step s = exec i { s with pending := rest }) ∧
    (∀ e, decode v = .error e →
      step s = .next { s with pending := rest, code := 2, sticky := true })

/-- R83: the thirteen command words of the opcode map. -/
def Obligations.OpcodeMapDecodes : Prop :=
  decode 0x00000000 = .ok .nop ∧ decode 0x00000001 = .ok .crcClr ∧
  decode 0x00000002 = .ok .crcByte ∧ decode 0x00000003 = .ok .crcCmp ∧
  decode 0x00000004 = .ok .crcChk1 ∧ decode 0x00000005 = .ok .crcChk2 ∧
  decode 0x00000006 = .ok .convT ∧ decode 0x00000007 = .ok .convRh ∧
  decode 0x00000008 = .ok .measT ∧ decode 0x00000009 = .ok .measRh ∧
  decode 0x0000000A = .ok .compRh ∧ decode 0x0000000B = .ok .dewpt ∧
  decode 0x0000000C = .ok .statClr

/-- R80, R83: every bit of a command word is fixed, so a word decodes to a command exactly when it
is that command's word. -/
def Obligations.DecodeAndEncodeAgree : Prop :=
  ∀ (v : Word) (i : Instr), decode v = .ok i ↔ v = encode i

/-- R87: a word is illegal, that is no command's word, when `RSV ≠ 0` or `OPC` is 0xD, 0xE or
0xF, and only then. -/
def Obligations.IllegalWordsAreTheReservedOnes : Prop :=
  ∀ v : Word, (∀ i, decode v ≠ .ok i) ↔
    (v.extractLsb' 4 28 ≠ 0 ∨ v.extractLsb' 0 4 = 0xD ∨ v.extractLsb' 0 4 = 0xE ∨
      v.extractLsb' 0 4 = 0xF)

/-- R203: an illegal word reports ILLEGAL, which sets `STICKY`, and changes no other field. -/
def Obligations.IllegalWordReportsIllegal : Prop :=
  ∀ (v : Word) (s : State),
    (v.extractLsb' 4 28 ≠ 0 ∨ 0xD ≤ (v.extractLsb' 0 4).toNat) →
    execute v s = .next { s with code := 2, sticky := true }

/-! ## Control and CRC commands -/

/-- R191: `NOP` changes nothing, `CODE` included. -/
def Obligations.NopChangesNothing : Prop :=
  decode 0x00000000 = .ok .nop ∧ ∀ s : State, exec .nop s = .next s

/-- R192: `STAT_CLR` clears `STICKY`, reports OK and changes no other field. -/
def Obligations.StatClrClearsSticky : Prop :=
  decode 0x0000000C = .ok .statClr ∧
  ∀ s : State, exec .statClr s = .next { s with sticky := false, code := 0 }

/-- R110: `CRC_CLR` clears the accumulator, reports OK and changes no other field. -/
def Obligations.CrcClrClearsTheAccumulator : Prop :=
  decode 0x00000001 = .ok .crcClr ∧
  ∀ s : State, exec .crcClr s = .next { s with acc := 0, code := 0 }

/-- R111: `CRC_BYTE` steps the accumulator by `ARG0[7:0]`, `CALC` takes its new value, OK is
reported and no other field changes. -/
def Obligations.CrcByteStepsTheAccumulator : Prop :=
  decode 0x00000002 = .ok .crcByte ∧
  ∀ s : State, exec .crcByte s = .next
    { s with acc := crc8Step s.acc (s.arg0.extractLsb' 0 8),
             calcCrc := crc8Step s.acc (s.arg0.extractLsb' 0 8), code := 0 }

/-- R112: `CRC_CMP` compares the accumulator with `ARG0[7:0]`. -/
def Obligations.CrcCmpComparesTheAccumulator : Prop :=
  decode 0x00000003 = .ok .crcCmp ∧
  ∀ s : State, exec .crcCmp s = .next
    (if s.acc = s.arg0.extractLsb' 0 8 then
      { s with calcCrc := s.acc, crcOk := true, code := 0 }
    else
      { s with calcCrc := s.acc, crcOk := false, code := 1, sticky := true })

/-- R113: `CRC_CHK1` checks the byte `ARG0[15:8]` against `ARG0[7:0]`. -/
def Obligations.CrcChk1ChecksOneByte : Prop :=
  decode 0x00000004 = .ok .crcChk1 ∧
  ∀ s : State, exec .crcChk1 s = .next
    (if crc8 [s.arg0.extractLsb' 8 8] = s.arg0.extractLsb' 0 8 then
      { s with calcCrc := crc8 [s.arg0.extractLsb' 8 8], crcOk := true, code := 0 }
    else
      { s with calcCrc := crc8 [s.arg0.extractLsb' 8 8], crcOk := false, code := 1,
               sticky := true })

/-- R114: `CRC_CHK2` checks the bytes `ARG0[23:16]`, `ARG0[15:8]` against `ARG0[7:0]`. -/
def Obligations.CrcChk2ChecksTwoBytes : Prop :=
  decode 0x00000005 = .ok .crcChk2 ∧
  ∀ s : State,
    let c := crc8 [s.arg0.extractLsb' 16 8, s.arg0.extractLsb' 8 8]
    exec .crcChk2 s = .next
      (if c = s.arg0.extractLsb' 0 8 then { s with calcCrc := c, crcOk := true, code := 0 }
      else { s with calcCrc := c, crcOk := false, code := 1, sticky := true })

/-! ## Conversion commands -/

/-- R140: `CONV_T` converts `ARG0[15:0]`. -/
def Obligations.ConvTConverts : Prop :=
  decode 0x00000006 = .ok .convT ∧
  ∀ s : State,
    let w : RawWord := s.arg0.extractLsb' 0 16
    let fx : Int := 17572 * ((w &&& 0xFFFC).toNat : Int) - 307036160
    exec .convT s = .next
      { s with res1 := BitVec.ofInt 32 fx, res0 := rne32 ⟨fx, 6553600⟩,
               tag := w.extractLsb' 0 2, code := 0 }

/-- R141: `CONV_RH` converts `ARG0[15:0]`. -/
def Obligations.ConvRhConverts : Prop :=
  decode 0x00000007 = .ok .convRh ∧
  ∀ s : State,
    let w : RawWord := s.arg0.extractLsb' 0 16
    let fx : Int := 12500 * ((w &&& 0xFFFC).toNat : Int) - 39321600
    exec .convRh s = .next
      { s with res1 := BitVec.ofInt 32 fx, res0 := rne32 ⟨fx, 6553600⟩,
               tag := w.extractLsb' 0 2, code := 0 }

/-- R142: `MEAS_T` checks the response's CRC over the bytes as sent, then converts `ARG0[23:8]`; on
a mismatch `RES0`, `RES1` and `TAG` are unchanged. -/
def Obligations.MeasTChecksThenConverts : Prop :=
  decode 0x00000008 = .ok .measT ∧
  ∀ s : State,
    let w : RawWord := s.arg0.extractLsb' 8 16
    let fx : Int := 17572 * ((w &&& 0xFFFC).toNat : Int) - 307036160
    let c := crc8 [s.arg0.extractLsb' 16 8, s.arg0.extractLsb' 8 8]
    exec .measT s = .next
      (if c = s.arg0.extractLsb' 0 8 then
        { s with calcCrc := c, crcOk := true, res1 := BitVec.ofInt 32 fx,
                 res0 := rne32 ⟨fx, 6553600⟩, tag := w.extractLsb' 0 2, code := 0 }
      else { s with calcCrc := c, crcOk := false, code := 1, sticky := true })

/-- R143: `MEAS_RH` checks the response's CRC over the bytes as sent, then converts `ARG0[23:8]`;
on a mismatch `RES0`, `RES1` and `TAG` are unchanged. -/
def Obligations.MeasRhChecksThenConverts : Prop :=
  decode 0x00000009 = .ok .measRh ∧
  ∀ s : State,
    let w : RawWord := s.arg0.extractLsb' 8 16
    let fx : Int := 12500 * ((w &&& 0xFFFC).toNat : Int) - 39321600
    let c := crc8 [s.arg0.extractLsb' 16 8, s.arg0.extractLsb' 8 8]
    exec .measRh s = .next
      (if c = s.arg0.extractLsb' 0 8 then
        { s with calcCrc := c, crcOk := true, res1 := BitVec.ofInt 32 fx,
                 res0 := rne32 ⟨fx, 6553600⟩, tag := w.extractLsb' 0 2, code := 0 }
      else { s with calcCrc := c, crcOk := false, code := 1, sticky := true })

/-- R132: for every command that converts (`CONV_T`, `CONV_RH`, and `MEAS_T`, `MEAS_RH` on a matching
CRC), `RES1` read as a signed number is 6,553,600 times the exact converted value of R131, with no
rounding and no wrap, and it lies in the range of R135. -/
def Obligations.FixedPointResultIsExact : Prop :=
  ∀ (i : Instr) (s : State) (w : RawWord),
    (ConvertsTemp i s w →
      ∃ t, exec i s = .next t ∧ (t.res1.toInt : ℝ) = 6553600 * tempExact (w &&& 0xFFFC).toNat ∧
        -307036160 ≤ t.res1.toInt ∧ t.res1.toInt ≤ 844492144) ∧
    (ConvertsHumidity i s w →
      ∃ t, exec i s = .next t ∧
        (t.res1.toInt : ℝ) = 6553600 * humidityExact (w &&& 0xFFFC).toNat ∧
        -39321600 ≤ t.res1.toInt ∧ t.res1.toInt ≤ 779828400)

/-- R139: for every command that converts (`CONV_T`, `CONV_RH`, and `MEAS_T`, `MEAS_RH` on a matching
CRC), `RES0` of a humidity is the exact value; of a temperature it is exact when and only when
`m mod 100 = 80`; and neither result is ever zero. -/
def Obligations.ConversionsExactWhereStated : Prop :=
  ∀ (i : Instr) (s : State) (w : RawWord),
    let m : Nat := (w &&& 0xFFFC).toNat
    (ConvertsHumidity i s w →
      ∃ t, exec i s = .next t ∧ f32Is t.res0 (humidityExact m) ∧ ¬ f32Is t.res0 0) ∧
    (ConvertsTemp i s w →
      ∃ t, exec i s = .next t ∧ (f32Is t.res0 (tempExact m) ↔ m % 100 = 80) ∧ ¬ f32Is t.res0 0)

/-- R133: for every command that converts, `RES0` is the binary32 value nearest the exact value,
ties to even, rounded once.  What that means over the reals is the reading of log entry 14
(DEDUCED). -/
def Obligations.ConversionsAreCorrectlyRounded : Prop :=
  ∀ (i : Instr) (s : State) (w : RawWord),
    (ConvertsTemp i s w →
      ∃ t, exec i s = .next t ∧ IsRne (tempExact (w &&& 0xFFFC).toNat) t.res0) ∧
    (ConvertsHumidity i s w →
      ∃ t, exec i s = .next t ∧ IsRne (humidityExact (w &&& 0xFFFC).toNat) t.res0)

/-- R137: the fixed-point results and the binary32 values of both conversions are strictly
increasing in the masked word, whichever commands convert the two words (`CONV_T`, `MEAS_T` on a
matching CRC; `CONV_RH`, `MEAS_RH` on a matching CRC). -/
def Obligations.ConversionsStrictlyIncrease : Prop :=
  ∀ (i i' : Instr) (s s' : State) (w w' : RawWord),
    (w &&& 0xFFFC).toNat < (w' &&& 0xFFFC).toNat →
    (ConvertsTemp i s w ∧ ConvertsTemp i' s' w' ∨
      ConvertsHumidity i s w ∧ ConvertsHumidity i' s' w') →
    ∃ t t' x x', exec i s = .next t ∧ exec i' s' = .next t' ∧
      t.res1.toInt < t'.res1.toInt ∧ f32Is t.res0 x ∧ f32Is t'.res0 x' ∧ x < x'

/-- R130: raw words that differ only in the low two bits give the same `RES0` and `RES1`, whichever
commands convert the two words (`CONV_T`, `MEAS_T` on a matching CRC; `CONV_RH`, `MEAS_RH` on a
matching CRC) and whatever the states. -/
def Obligations.StatusTagDoesNotChangeTheValue : Prop :=
  ∀ (i i' : Instr) (s s' : State) (w w' : RawWord), w &&& 0xFFFC = w' &&& 0xFFFC →
    (ConvertsTemp i s w ∧ ConvertsTemp i' s' w' ∨
      ConvertsHumidity i s w ∧ ConvertsHumidity i' s' w') →
    ∃ t t', exec i s = .next t ∧ exec i' s' = .next t' ∧ t'.res0 = t.res0 ∧ t'.res1 = t.res1

/-! ## binary32 -/

/-- R10: `rne32` rounds every exact fraction to the nearest binary32 pattern, ties to even,
overflow to infinity, subnormals kept.  What nearest means over the reals is the reading of log
entry 14 (DEDUCED). -/
def Obligations.RneIsCorrectlyRounded : Prop :=
  ∀ q : Frac, 0 < q.den → IsRne (fracToReal q) (rne32 q)

/-- After R10: every real number has exactly one correctly rounded pattern.  R10 speaks of rationals;
the step to every real number is the reading of log entry 14 (DEDUCED), which R175 needs. -/
def Obligations.RoundingIsUnique : Prop :=
  (∀ x : ℝ, IsRne x (roundReal x)) ∧ ∀ (x : ℝ) (a b : Word), IsRne x a → IsRne x b → a = b

/-! ## Environmental math -/

/-- R161, in the model's own terms: `COMP_RH` completes on finite operands with the exact fraction
rounded once, and reports DOMAIN with `QNAN` on any other. -/
def Obligations.CompRhCompletes : Prop :=
  ∀ s : State,
    (∀ t h : Int, f32val s.arg0 = .finite t → f32val s.arg1 = .finite h →
      exec .compRh s = .next { s with res0 := rne32 (compFrac t h), code := 0 }) ∧
    (f32IsFinite s.arg0 = false ∨ f32IsFinite s.arg1 = false →
      exec .compRh s = .next { s with res0 := 0x7FC00000, code := 3, sticky := true })

/-- R160, R161: on finite operands `COMP_RH` writes to `RES0` the correctly rounded value of
`RH + (25 - T) * (-0.15)` and reports OK; on any other operands it writes `QNAN` and reports
DOMAIN; no other field changes.  What correctly rounded means over the reals is the reading of log
entry 14 (DEDUCED). -/
def Obligations.CompRhFollowsTheFormula : Prop :=
  decode 0x0000000A = .ok .compRh ∧
  ∀ s : State,
    (∀ t h : Int, f32val s.arg0 = .finite t → f32val s.arg1 = .finite h →
      ∃ r, IsRne (compExact (realOfUnits t) (realOfUnits h)) r ∧
        exec .compRh s = .next { s with res0 := r, code := 0 }) ∧
    (f32IsFinite s.arg0 = false ∨ f32IsFinite s.arg1 = false →
      exec .compRh s = .next { s with res0 := 0x7FC00000, code := 3, sticky := true })

/-- R161, R162: at `T = 25` the result is `RH` itself, but that a zero is always `+0`. -/
def Obligations.CompRhAt25IsTheHumidity : Prop :=
  ∀ (s : State) (h : Int), s.arg0 = 0x41C80000 → f32val s.arg1 = .finite h →
    exec .compRh s = .next
      { s with res0 := if s.arg1 = 0x80000000 then 0 else s.arg1, code := 0 }

/-- R173, R174, in the model's own terms: on finite operands with `RH > 0`, but for the one pair
of R174, `DEWPT` completes with the parameter's value; otherwise it reports DOMAIN with `QNAN`. -/
def Obligations.DewptCompletes : Prop :=
  ∀ s : State,
    (∀ t h : Int, f32val s.arg0 = .finite t → f32val s.arg1 = .finite h → 0 < h →
      ¬ (s.arg0 = 0x434CF000 ∧ s.arg1 = 0x49742400) →
      exec .dewpt s = .next { s with res0 := Config.dpImpl s.dewUnit s.arg0 s.arg1, code := 0 }) ∧
    (f32IsFinite s.arg0 = false ∨ f32IsFinite s.arg1 = false ∨
      (∃ h : Int, f32val s.arg1 = .finite h ∧ h ≤ 0) ∨
      (s.arg0 = 0x434CF000 ∧ s.arg1 = 0x49742400) →
      exec .dewpt s = .next { s with res0 := 0x7FC00000, code := 3, sticky := true })

/-- R174: for finite binary32 operands `T + C` is never 0, and for `RH > 0` the denominator of the
dew-point formula is 0 for exactly one pair of patterns, the one pair for which `DEWPT` then
reports DOMAIN. -/
def Obligations.DewDenominatorZeroForOnePair : Prop :=
  ∀ (a b : Word) (t h : Int), f32val a = .finite t → f32val b = .finite h → 0 < h →
    realOfUnits t + dewC ≠ 0 ∧
    (dewB / (realOfUnits t + dewC) - log10 (realOfUnits h / 100) = 0 ↔
      a = 0x434CF000 ∧ b = 0x49742400) ∧
    ∀ s : State, s.arg0 = a → s.arg1 = b →
      ∃ u, exec .dewpt s = .next u ∧ (u.code = 3 ↔ a = 0x434CF000 ∧ b = 0x49742400)

/-- R173: `DEWPT` reports DOMAIN and writes `QNAN` exactly where an operand is not finite, `RH ≤ 0`,
`T + C = 0` or `log10(RH / 100) = B / (T + C)`, said over the real numbers; otherwise `RES0` takes
the parameter's value and OK is reported; no other field changes. -/
def Obligations.DewptFollowsItsDomain : Prop :=
  decode 0x0000000B = .ok .dewpt ∧
  ∀ s : State,
    (f32IsFinite s.arg0 = false ∨ f32IsFinite s.arg1 = false →
      exec .dewpt s = .next { s with res0 := 0x7FC00000, code := 3, sticky := true }) ∧
    (∀ t h : Int, f32val s.arg0 = .finite t → f32val s.arg1 = .finite h →
      (realOfUnits h ≤ 0 ∨ realOfUnits t + dewC = 0 ∨
        log10 (realOfUnits h / 100) = dewB / (realOfUnits t + dewC) →
        exec .dewpt s = .next { s with res0 := 0x7FC00000, code := 3, sticky := true }) ∧
      (¬ (realOfUnits h ≤ 0 ∨ realOfUnits t + dewC = 0 ∨
        log10 (realOfUnits h / 100) = dewB / (realOfUnits t + dewC)) →
        exec .dewpt s = .next { s with res0 := Config.dpImpl s.dewUnit s.arg0 s.arg1, code := 0 }))

/-- R172, R5: `DP_TOL` of the block's unit is at most 0.1, and for operands in the rated range `DEWPT` reports
OK and `RES0` takes `dp_impl` of the two operand patterns alone (P1), which is finite and within
`DP_TOL` of the exact dew point (P2).  Of other operands on which `DEWPT` reports OK only P1 is
said (P3).  That `DP_TOL` is positive is no rule's: it is from the table of open parameters of
92_eei_decisions.md and log entry 7 (DESIGN CHOICE).  Which unit a block has is a number in its state
(log entry 20, DESIGN CHOICE). -/
def Obligations.DewptIsAccurateWhenRated : Prop :=
  (∀ n : Nat, 0 < Config.dpTol n ∧ Config.dpTol n ≤ 1 / 10) ∧
  (∀ s u : State, exec .dewpt s = .next u → u.code = 0 →
    u.res0 = Config.dpImpl s.dewUnit s.arg0 s.arg1) ∧
  ∀ (s : State) (t h : Int), f32val s.arg0 = .finite t → f32val s.arg1 = .finite h →
    Rated (realOfUnits t) (realOfUnits h) →
    exec .dewpt s = .next { s with res0 := Config.dpImpl s.dewUnit s.arg0 s.arg1, code := 0 } ∧
    ∃ d : Int, f32val (Config.dpImpl s.dewUnit s.arg0 s.arg1) = .finite d ∧
      |realOfUnits d - dewExact (realOfUnits t) (realOfUnits h)| ≤ Config.dpTol s.dewUnit

/-- R171: where the dew point is defined it has the closed form in which `A` cancels, and at
`RH = 100` it is `T`. -/
def Obligations.DewPointClosedForm : Prop :=
  (∀ T RH : ℝ, T + dewC ≠ 0 → 0 < RH → log10 (RH * partialPressure T / 100) ≠ dewA →
    dewExact T RH = dewB / (dewB / (T + dewC) - log10 (RH / 100)) - dewC) ∧
  (∀ T : ℝ, T + dewC ≠ 0 → dewExact T 100 = T)

/-- R176: in the rated range the denominator of the dew-point formula is at least its value at
`T = 130`, `RH = 125`, which is above 4.7, the exact dew point is strictly increasing in `T` and in `RH`, it lies
below, at or above `T` as `RH` lies below, at or above 100, and at `RH = 100` with `T` in [-10, 60]
`RES0` of `DEWPT` is within `DP_TOL`, at most 0.1, of `T`. -/
def Obligations.DewPointLawsInTheRatedRange : Prop :=
  (47 / 10 < dewB / (130 + dewC) - log10 (125 / 100)) ∧
  (∀ T RH : ℝ, Rated T RH →
    dewB / (130 + dewC) - log10 (125 / 100) ≤ dewB / (T + dewC) - log10 (RH / 100)) ∧
  (∀ T T' RH : ℝ, Rated T RH → Rated T' RH → T < T' → dewExact T RH < dewExact T' RH) ∧
  (∀ T RH RH' : ℝ, Rated T RH → Rated T RH' → RH < RH' → dewExact T RH < dewExact T RH') ∧
  (∀ T RH : ℝ, Rated T RH →
    (RH < 100 → dewExact T RH < T) ∧ (RH = 100 → dewExact T RH = T) ∧
    (100 < RH → T < dewExact T RH)) ∧
  (∀ (s : State) (t : Int), f32val s.arg0 = .finite t → s.arg1 = 0x42C80000 →
    -10 ≤ realOfUnits t → realOfUnits t ≤ 60 →
    ∃ (r : Word) (d : Int), exec .dewpt s = .next { s with res0 := r, code := 0 } ∧
      f32val r = .finite d ∧ |realOfUnits d - realOfUnits t| ≤ Config.dpTol s.dewUnit ∧
      Config.dpTol s.dewUnit ≤ 1 / 10)

/-- R175: `dp_ref` is the correctly rounded exact dew point of the operands; on finite operands for
which R170 defines no dew point this is the rounding of the total function `dewExact`, the model's
choice (log entry 21, DESIGN CHOICE).  In the rated range the exact dew point lies in
[-105.05, 137.51], and every correctly rounded pattern of it is finite and within `2^-17` of it; so
`dp_ref` meets the contract of `dp_impl` for every `DP_TOL` from `2^-17` on.  What correctly rounded
means over the reals is the reading of log entry 14 (DEDUCED). -/
def Obligations.ReferenceDewPointConforms : Prop :=
  (∀ (a b : Word) (t h : Int), f32val a = .finite t → f32val b = .finite h →
    IsRne (dewExact (realOfUnits t) (realOfUnits h)) (dpRef a b)) ∧
  (∀ T RH : ℝ, Rated T RH → -(10505 / 100) ≤ dewExact T RH ∧ dewExact T RH ≤ 13751 / 100) ∧
  (∀ (T RH : ℝ) (r : Word), Rated T RH → IsRne (dewExact T RH) r →
    ∃ d : Int, f32val r = .finite d ∧ |realOfUnits d - dewExact T RH| ≤ 1 / 2 ^ 17) ∧
  ∀ tol : ℝ, 1 / 2 ^ 17 ≤ tol → DewPointConforms tol dpRef

/-! ## The CRC -/

/-- R104: `crc8(B)` is the CRC of R100, the remainder of polynomial division over GF(2), for every
byte sequence. -/
def Obligations.CrcIsThePolynomialRemainder : Prop := ∀ bytes : List Byte, IsCrc bytes (crc8 bytes)

/-- R105: the two validation formulations agree. -/
def Obligations.ValidationFormsAgree : Prop :=
  ∀ (bytes : List Byte) (c : Byte), crc8 bytes = c ↔ crc8 (bytes ++ [c]) = 0

/-- R106 items 1 to 3: linearity, leading zero bytes, and one-byte messages. -/
def Obligations.CrcLinearityAndLeadingZeros : Prop :=
  (∀ c b : Byte, crc8Step c b = crc8Step 0 (c ^^^ b) ∧
    crcTable[(c ^^^ b).toNat]? = some (crc8Step c b)) ∧
  (∀ (n : Nat) (bytes : List Byte), crc8 (List.replicate n 0 ++ bytes) = crc8 bytes) ∧
  (∀ b : Byte, crcTable[b.toNat]? = some (crc8 [b]))

/-- R106 item 4: two data bytes and their check byte, with an error of 1, 2 or 3 bits, of an odd
number of bits, or with a burst of length 8 or less, never pass. -/
def Obligations.CrcDetectsSmallErrors : Prop :=
  ∀ (d1 d0 e1 e0 ek : Byte) (e : BitVec 24), e = e1 ++ e0 ++ ek → e ≠ 0 →
    ((List.range 24).countP (fun k => e.getLsbD k) ≤ 3 ∨
      (List.range 24).countP (fun k => e.getLsbD k) % 2 = 1 ∨
      (∃ (b : Byte) (k : Nat), k ≤ 16 ∧ e = b.setWidth 24 <<< k)) →
    crc8 [d1 ^^^ e1, d0 ^^^ e0, crc8 [d1, d0] ^^^ ek] ≠ 0

/-- R107: the printed table is `crc8_step(0x00, x)` for every byte. -/
def Obligations.TableIsTheStepFromZero : Prop :=
  ∀ x : Byte, crcTable[x.toNat]? = some (crc8Step 0 x)

/-- R108 and C1 of 90_conflicts.md: the 16-bit formulation leaves the CRC in the high byte and 0 in
the low byte, for every input. -/
def Obligations.LiteralAccumulatorHoldsTheCrcHigh : Prop :=
  ∀ bytes : List Byte, crc16Literal bytes = crc8 bytes ++ (0 : Byte)

/-- R111, R103, R110: after `CRC_CLR` and `CRC_BYTE` of each byte in turn, from any state, `ACC` is
the CRC of the bytes; only `ARG0`, `ACC`, `CALC` and `CODE` can have changed. -/
def Obligations.StreamingComputesTheCrc : Prop :=
  ∀ (s : State) (bytes : List Byte), ∃ t,
    afterWrites ((.cmd, encode .crcClr) :: streamWrites bytes) s = .next t ∧
    t.acc = crc8 bytes ∧
    t = { s with arg0 := t.arg0, acc := t.acc, calcCrc := t.calcCrc, code := 0 }

/-! ## The whole machine -/

/-- R26, R28, R135: every step keeps `CODE` within the four codes, `STICKY` set whenever `CODE` is
an error, and `RES1` within the conversions' range. -/
def Obligations.StepKeepsTheInvariant : Prop :=
  ∀ s t : State, BlockInvariant s → step s = .next t → BlockInvariant t

/-- R39: the reset state meets the invariant. -/
def Obligations.ResetMeetsTheInvariant : Prop := BlockInvariant State.reset

/-- R39: after reset every field of the block is 0, and so is every register the host can read. -/
def Obligations.ResetLeavesEveryFieldZero : Prop :=
  State.reset.arg0 = 0 ∧ State.reset.arg1 = 0 ∧ State.reset.res0 = 0 ∧ State.reset.res1 = 0 ∧
  State.reset.code = 0 ∧ State.reset.crcOk = false ∧ State.reset.sticky = false ∧
  State.reset.tag = 0 ∧ State.reset.calcCrc = 0 ∧ State.reset.acc = 0 ∧
  ∀ r : HostReg, readReg r State.reset = 0

/-- R230, R216: outside reset, a reset arriving during a `CMD` write gives what reset alone gives,
whatever the word; while reset is asserted every host access stops, such a write too; releasing reset gives the reset values, and
so does power-up.  That the events are these four is the model's (log entries 3, 4 and 5). -/
def Obligations.ResetWinsAndLeavesTheResetValues : Prop :=
  ∀ s : State,
    (∃ u, performEvent (.resetLine true) s = .next u ∧ u.inReset = true ∧
      (s.inReset = false → ∀ v, performEvent (.cmdWriteCutByReset v) s = .next u)) ∧
    (s.inReset = true →
      (∀ w a x, performEvent (.read w a x) s = .fault .accessInReset) ∧
      (∀ w a src, performEvent (.write w a src) s = .fault .accessInReset) ∧
      (∀ v, performEvent (.cmdWriteCutByReset v) s = .fault .accessInReset) ∧
      ∃ t, performEvent (.resetLine false) s = .next t ∧ IsResetState t ∧ t.inReset = false) ∧
    (∃ t, performEvent .powerUp s = .next t ∧ IsResetState t)

/-- R38, R21, R24, R25, R27 to R30, R32: which commands may write which field, every column of the
matrix; no command writes an operand register or anything of the host's side.  `NOP` writes no code;
`STICKY` is written by `STAT_CLR` and, with an error, by the commands that can report one. -/
def Obligations.CommandsWriteOnlyTheirFields : Prop :=
  ∀ (i : Instr) (s t : State), exec i s = .next t →
    t.arg0 = s.arg0 ∧ t.arg1 = s.arg1 ∧ SameHost t s ∧
    (i ∉ [.convT, .convRh, .measT, .measRh, .compRh, .dewpt] → t.res0 = s.res0) ∧
    (i ∉ [.convT, .convRh, .measT, .measRh] → t.res1 = s.res1 ∧ t.tag = s.tag) ∧
    (i ∉ [.crcCmp, .crcChk1, .crcChk2, .measT, .measRh] → t.crcOk = s.crcOk) ∧
    (i ∉ [.crcByte, .crcCmp, .crcChk1, .crcChk2, .measT, .measRh] → t.calcCrc = s.calcCrc) ∧
    (i ∉ [.crcClr, .crcByte] → t.acc = s.acc) ∧
    (i = .nop → t.code = s.code) ∧
    (i ∉ [.crcCmp, .crcChk1, .crcChk2, .measT, .measRh, .compRh, .dewpt, .statClr] →
      t.sticky = s.sticky) ∧
    (i ≠ .statClr → t.code = 0 → t.sticky = s.sticky) ∧
    (i ∈ [.measT, .measRh] → t.code ≠ 0 → t.res0 = s.res0 ∧ t.res1 = s.res1 ∧ t.tag = s.tag)

/-- R200, R201, R207: every command but `NOP` completes and reports exactly one code: CRC_ERR only
from the comparing commands, DOMAIN only from the environmental ones, else OK; and `STICKY` is set
by a code other than OK, cleared by `STAT_CLR` alone, and otherwise kept. -/
def Obligations.EveryCommandReportsOneCode : Prop :=
  ∀ (i : Instr) (s : State), i ≠ .nop → ∃ t, exec i s = .next t ∧
    (t.code = 0 ∨
      (t.code = 1 ∧ i ∈ [.crcCmp, .crcChk1, .crcChk2, .measT, .measRh]) ∨
      (t.code = 3 ∧ i ∈ [.compRh, .dewpt])) ∧
    t.sticky = (if i = .statClr then false else s.sticky || t.code != 0)

/-- R206: from a state as `STAT_CLR` or reset leaves it, after any host writes among which there is
no `STAT_CLR`, `STICKY` is 0 exactly when no write of them left `CODE` showing an error. -/
def Obligations.StickyRemembersEveryError : Prop :=
  ∀ (writes : List (HostReg × Word)) (s t : State), s.sticky = false → s.code = 0 →
    (HostReg.cmd, encode .statClr) ∉ writes → afterWrites writes s = .next t →
    (t.sticky = false ↔
      ∀ (done todo : List (HostReg × Word)) (u : State), writes = done ++ todo →
        afterWrites done s = .next u → u.code = 0)

/-- R52, R60, R65, R208: outside reset, every aligned 32-bit access inside the window is performed
whole in one step: reads always, and writes whose data the host has.  The queue is the model's (log entry 1), the host's
variables too (log entry 12). -/
def Obligations.EveryAdmittedAccessIsPerformed : Prop :=
  ∀ (s : State) (rest : List HostEvent) (addr : Nat), s.inReset = false →
    s.baseAddr ≤ addr → addr < s.baseAddr + 32 → addr % 4 = 0 →
    (∀ x, s.pending = .read .w32 addr x :: rest →
      ∃ t, step s = .next t ∧ t.pending = rest ∧ SameBlock t s) ∧
    (∀ src v, s.pending = .write .w32 addr src :: rest → sourceValue src s = some v →
      ∃ t, step s = .next t ∧ t.pending = rest ∧ t.reads = s.reads ∧ t.inReset = false)

/-- R53 (and I12 of 93_implementation_defined.md for accesses outside the window): an access that is
8 or 16 bits wide, wider than 32 bits, not at a multiple of 4, or outside the window has no step.
The names of the stops are the model's (log entry 10), the queue too (log entry 1). -/
def Obligations.UnadmittedAccessHasNoStep : Prop :=
  ∀ (s : State) (rest : List HostEvent) (width : AccessWidth) (addr : Nat) (e : HostEvent),
    s.inReset = false → s.pending = e :: rest →
    ((∃ x, e = .read width addr x) ∨ ∃ src, e = .write width addr src) →
    ((width = .w8 ∨ width = .w16) → step s = .fault .narrowAccess) ∧
    (width = .wider → step s = .fault .wideAccess) ∧
    (width = .w32 → s.baseAddr ≤ addr → addr < s.baseAddr + 32 → addr % 4 ≠ 0 →
      step s = .fault .misalignedAccess) ∧
    (width = .w32 → (addr < s.baseAddr ∨ s.baseAddr + 32 ≤ addr) →
      step s = .fault .outsideWindow)

/-- R55, R51: a host read returns the word of the register map and changes no field of the block.
Where the word goes, the list of reads, is the model's (log entry 12), the queue too (log entry 1). -/
def Obligations.HostReadReturnsTheRegister : Prop :=
  ∀ (s : State) (rest : List HostEvent) (off x : Nat) (v : Word), s.inReset = false →
    s.pending = .read .w32 (s.baseAddr + off) x :: rest →
    (off = 0x00 ∧ v = 0 ∨ off = 0x04 ∧ v = s.arg0 ∨ off = 0x08 ∧ v = s.arg1 ∨
      off = 0x0C ∧ v = s.res0 ∨ off = 0x10 ∧ v = s.res1 ∨ off = 0x14 ∧ v = statusWord s ∨
      off = 0x18 ∧ v = s.acc.setWidth 32 ∨ off = 0x1C ∧ v = 0) →
    step s = .next { s with pending := rest, reads := (x, v) :: s.reads }

/-- R26, R31, R32: the places of the fields of `STATUS` and `CRCACC`, and their reserved bits, which
read 0. -/
def Obligations.StatusAndCrcaccLayout : Prop :=
  ∀ s : State,
    (statusWord s).extractLsb' 0 3 = s.code ∧ (statusWord s).getLsbD 3 = false ∧
    (statusWord s).getLsbD 4 = s.crcOk ∧ (statusWord s).getLsbD 5 = s.sticky ∧
    (statusWord s).extractLsb' 6 2 = s.tag ∧ (statusWord s).extractLsb' 8 8 = s.calcCrc ∧
    (statusWord s).extractLsb' 16 16 = 0 ∧
    (crcaccWord s).extractLsb' 0 8 = s.acc ∧ (crcaccWord s).extractLsb' 8 24 = 0

/-- R56, R58: a host write stores all 32 bits in `ARG0` or `ARG1`, runs the word at `CMD`, and has
no effect on a read-only register or the reserved place, whether the word
written is a literal or the value of a host variable (R88).  The queue is the model's (log entry 1). -/
def Obligations.HostWriteStoresOrIsIgnored : Prop :=
  ∀ (s : State) (rest : List HostEvent) (off : Nat) (src : Source) (v : Word), s.inReset = false →
    s.pending = .write .w32 (s.baseAddr + off) src :: rest → sourceValue src s = some v →
    (off = 0x00 → step s = execute v { s with pending := rest }) ∧
    (off = 0x04 → step s = .next { s with pending := rest, arg0 := v }) ∧
    (off = 0x08 → step s = .next { s with pending := rest, arg1 := v }) ∧
    (off ∈ [0x0C, 0x10, 0x14, 0x18, 0x1C] → step s = .next { s with pending := rest })

/-- R63, R57: a write to any place but `CMD` done twice is as done once; a `CMD` write is not: the
second run of `CRC_BYTE` can change `ACC` again. -/
def Obligations.OnlyCmdWritesAreNotIdempotent : Prop :=
  (∀ (r : HostReg) (v : Word) (s : State), r ≠ .cmd →
    ∃ t, writeReg r v s = .next t ∧ writeReg r v t = .next t) ∧
  (∃ s t u : State, writeReg .cmd (encode .crcByte) s = .next t ∧
    writeReg .cmd (encode .crcByte) t = .next u ∧ u.acc ≠ t.acc)

/-- R37: every stored bit is readable: two blocks that read the same at every place hold the same
state. -/
def Obligations.EveryStoredBitIsReadable : Prop :=
  ∀ s t : State, (∀ r, readReg r s = readReg r t) → SameBlock s t

/-- R85: the bits of `ARG0` outside a command's operand format, and `ARG1` for a command that is not
of format `F2`, do not change what the command does. -/
def Obligations.IgnoredOperandBitsDoNotMatter : Prop :=
  ∀ (i : Instr) (s : State) (a b : Word),
    a &&& operandBits i = s.arg0 &&& operandBits i → (readsArg1 i = true → b = s.arg1) →
    ∃ t, exec i s = .next t ∧
      exec i { s with arg0 := a, arg1 := b } = .next { t with arg0 := a, arg1 := b }

/-- R35, R29: no command reads `CODE`, `CRC_OK`, `STICKY` or `TAG`.  With other values there the
command completes with every result, and every flag it writes, the same: the code it reports, the
verdict of a comparison, the tag of the word converted, `STICKY` set by an error and cleared by
`STAT_CLR`; and a flag it does not write keeps its own value. -/
def Obligations.FlagsAreNeverInputs : Prop :=
  ∀ (i : Instr) (s : State) (c : BitVec 3) (ok sticky : Bool) (tag : BitVec 2),
    ∃ t, exec i s = .next t ∧
      exec i { s with code := c, crcOk := ok, sticky := sticky, tag := tag } = .next
        { t with
          code := if i = .nop then c else t.code
          crcOk := if i ∈ [.crcCmp, .crcChk1, .crcChk2, .measT, .measRh] then t.crcOk else ok
          tag := if i ∈ [.convT, .convRh] ∨ (i ∈ [.measT, .measRh] ∧ t.crcOk = true) then t.tag
            else tag
          sticky := if i = .statClr then false else if i ≠ .nop ∧ t.code ≠ 0 then true
            else sticky }

/-- R66, R88, R208: a well-formed program of host statements, issued outside reset, runs to its end
in as many steps as it has statements, whatever the state it starts from.  The queue is the model's
(log entry 1), the host's variables too (log entry 12). -/
def Obligations.WellFormedProgramsRunToTheEnd : Prop :=
  ∀ (program : List Stmt) (s : State), s.inReset = false →
    s.pending = assemble s.baseAddr program → programWf (s.reads.map Prod.fst) program = true →
    ∃ t, core.run program.length s = .next t ∧ t.pending = [] ∧ t.inReset = false ∧
      t.basePage = s.basePage

/-- R61, R84: bytes packed as the assembly packs them stand in the fields the commands read. -/
def Obligations.PackedOperandsAreReadBack : Prop :=
  (∀ d1 d0 ck : Byte, argD1 (packB3 d1 d0 ck) = d1 ∧ argD0 (packB3 d1 d0 ck) = d0 ∧
    argLowByte (packB3 d1 d0 ck) = ck ∧ argResponseRaw (packB3 d1 d0 ck) = d1 ++ d0 ∧
    (packB3 d1 d0 ck).extractLsb' 24 8 = 0) ∧
  (∀ d0 ck : Byte, argD0 (packB2 d0 ck) = d0 ∧ argLowByte (packB2 d0 ck) = ck) ∧
  (∀ d : Byte, argLowByte (packB1 d) = d) ∧
  (∀ w : RawWord, argRaw (packW16 w) = w)

/-- R89: each pseudo-statement, issued outside reset before all else, takes one step for each
access of its expansion and leaves what its command leaves on the operands given: bytes are shifted
and ORed into `ARG0` as R89 writes it, and a host variable's value is the one it has.  The events
after it stay outstanding.  The last clause says the verdict of `crc.chk2` in full (R114).  The queue
is the model's (log entry 1), the host's variables too (log entry 12). -/
def Obligations.PseudoStatementsRunTheirCommands : Prop :=
  ∀ s : State, s.inReset = false →
    runPseudo 1 .nop s = exec .nop s ∧
    runPseudo 1 .crcClr s = exec .crcClr s ∧
    runPseudo 1 .statClr s = exec .statClr s ∧
    (∀ b : Byte, runPseudo 2 (.crcByte b) s = exec .crcByte { s with arg0 := b.setWidth 32 }) ∧
    (∀ c : Byte, runPseudo 2 (.crcCmp c) s = exec .crcCmp { s with arg0 := c.setWidth 32 }) ∧
    (∀ d0 ck : Byte, runPseudo 2 (.crcChk1 d0 ck) s = exec .crcChk1
      { s with arg0 := (d0.setWidth 32 <<< 8) ||| ck.setWidth 32 }) ∧
    (∀ w : RawWord, runPseudo 2 (.convT w) s = exec .convT { s with arg0 := w.setWidth 32 }) ∧
    (∀ w : RawWord, runPseudo 2 (.convRh w) s = exec .convRh { s with arg0 := w.setWidth 32 }) ∧
    (∀ d1 d0 ck : Byte,
      let a : Word := (d1.setWidth 32 <<< 16) ||| (d0.setWidth 32 <<< 8) ||| ck.setWidth 32
      runPseudo 2 (.measT d1 d0 ck) s = exec .measT { s with arg0 := a } ∧
      runPseudo 2 (.measRh d1 d0 ck) s = exec .measRh { s with arg0 := a } ∧
      runPseudo 2 (.crcChk2 d1 d0 ck) s = exec .crcChk2 { s with arg0 := a }) ∧
    (∀ (t rh : Source) (T RH : Word), sourceValue t s = some T → sourceValue rh s = some RH →
      runPseudo 3 (.comp t rh) s = exec .compRh { s with arg0 := T, arg1 := RH } ∧
      runPseudo 3 (.dewpt t rh) s = exec .dewpt { s with arg0 := T, arg1 := RH }) ∧
    ∀ d1 d0 ck : Byte,
      let c := crc8 [d1, d0]
      runPseudo 2 (.crcChk2 d1 d0 ck) s = .next
        (if c = ck then
          { s with arg0 := packB3 d1 d0 ck, calcCrc := c, crcOk := true, code := 0 }
        else
          { s with arg0 := packB3 d1 d0 ck, calcCrc := c, crcOk := false, code := 1,
                   sticky := true })

/-- R214, R50: blocks with windows apart share nothing: an address in one block's window belongs to
that block, and a step of one block leaves every other block as it was.  The list of blocks is the
model's (log entry 16). -/
def Obligations.BlocksShareNothing : Prop :=
  ∀ (p : Platform) (i : Nat), Platform.windowsApart p →
    (∀ s a, p[i]? = some s → inWindow s.baseAddr a = true → Platform.ownerOf p a = some i) ∧
    (∀ q : Platform, Platform.stepBlock p i = .next q →
      Platform.windowsApart q ∧ q.length = p.length ∧ ∀ j, j ≠ i → q[j]? = p[j]?)
end

