-- ==== Sys2Proof/Laws/Binary32.lean ====
section
/-! SUPPORT. The values of binary32 patterns: they strictly increase with the magnitude pattern, up
to the pattern of infinity and beyond, and rounding to a whole number is to the nearest. -/

namespace Sys2Proof.Machine

/-- The value, in units of `2^-149`, of the next magnitude pattern. -/
theorem f32Units_succ (m : Nat) :
    f32Units ((m + 1) / 2 ^ 23) ((m + 1) % 2 ^ 23) =
      f32Units (m / 2 ^ 23) (m % 2 ^ 23) + 2 ^ (m / 2 ^ 23 - 1) := by
  rcases Nat.lt_or_ge (m % 2 ^ 23 + 1) (2 ^ 23) with h | h
  · have h1 : (m + 1) / 2 ^ 23 = m / 2 ^ 23 := by omega
    have h2 : (m + 1) % 2 ^ 23 = m % 2 ^ 23 + 1 := by omega
    rw [h1, h2]
    unfold f32Units
    split
    · rename_i h0; rw [h0]; norm_num
    · ring
  · have h1 : (m + 1) / 2 ^ 23 = m / 2 ^ 23 + 1 := by omega
    have h2 : (m + 1) % 2 ^ 23 = 0 := by omega
    have h3 : m % 2 ^ 23 = 2 ^ 23 - 1 := by omega
    rw [h1, h2, h3]
    unfold f32Units
    rcases Nat.eq_zero_or_pos (m / 2 ^ 23) with h0 | h0
    · rw [h0]; norm_num
    · rw [if_neg (by omega), if_neg (by omega)]
      obtain ⟨k, hk⟩ := Nat.exists_eq_succ_of_ne_zero (by omega : m / 2 ^ 23 ≠ 0)
      rw [hk]
      simp only [Nat.succ_eq_add_one, Nat.add_sub_cancel, Nat.pow_succ]
      omega

/-- Magnitudes strictly increase with their patterns (R9). -/
theorem f32Units_strictMono :
    StrictMono (fun m : Nat => f32Units (m / 2 ^ 23) (m % 2 ^ 23)) := by
  refine strictMono_nat_of_lt_succ fun m => ?_
  have : 0 < 2 ^ (m / 2 ^ 23 - 1) := by positivity
  simp only [f32Units_succ]
  exact Nat.lt_add_of_pos_right this

/-- The same over the reals. -/
theorem magnitudeValue_strictMono : StrictMono magnitudeValue := by
  intro a b h
  have : f32Units (a / 2 ^ 23) (a % 2 ^ 23) < f32Units (b / 2 ^ 23) (b % 2 ^ 23) :=
    f32Units_strictMono h
  unfold magnitudeValue realOfUnits
  have h2 : ((f32Units (a / 2 ^ 23) (a % 2 ^ 23) : Nat) : ℝ) < (f32Units (b / 2 ^ 23) (b % 2 ^ 23) : Nat) :=
    Nat.cast_lt.2 this
  simp only [Int.cast_natCast]
  exact div_lt_div_of_pos_right h2 (by positivity)

/-- A number that a magnitude pattern has exactly, with the right sign, is rounded to it (R10). -/
theorem isRne_of_exact {x : ℝ} {b : Word} (hx : x ≠ 0) (hs : f32Sign b = true ↔ x < 0)
    (hm : b.toNat % 2 ^ 31 ≤ 0x7F800000) (hv : magnitudeValue (b.toNat % 2 ^ 31) = abs x) :
    IsRne x b := by
  refine ⟨fun h => absurd h hx, fun _ => ⟨hs, hm, fun m _ hne => .inl ?_⟩⟩
  have : magnitudeValue m ≠ magnitudeValue (b.toNat % 2 ^ 31) := fun h =>
    hne (magnitudeValue_strictMono.injective h)
  rw [hv, sub_self, abs_zero, abs_pos, sub_ne_zero, ← hv]
  exact this

/-- `roundHalfEven` is the nearest whole number, ties to even (R10): twice the distance is at most
the divisor, and where it is the divisor the result is even. -/
theorem roundHalfEven_near {a d : Nat} (hd : 0 < d) :
    2 * (roundHalfEven a d * d) ≤ 2 * a + d ∧ 2 * a ≤ 2 * (roundHalfEven a d * d) + d ∧
    (2 * (roundHalfEven a d * d) = 2 * a + d ∨ 2 * a = 2 * (roundHalfEven a d * d) + d →
      roundHalfEven a d % 2 = 0) := by
  have h := Nat.div_add_mod a d
  have hlt := Nat.mod_lt a hd
  unfold roundHalfEven
  generalize a / d = q at *
  generalize a % d = r at *
  subst h
  have hq : d * q = q * d := Nat.mul_comm d q
  have h1 : (q + 1) * d = q * d + d := by ring
  split
  · omega
  · split
    · rw [h1]; omega
    · rcases Nat.mod_two_eq_zero_or_one q with h2 | h2
      · rw [h2, Nat.add_zero]; omega
      · rw [h2, h1]; omega

end Sys2Proof.Machine
end

