-- ==== Sys2Proof/Laws/State.lean ====
section
/-! SUPPORT. One lemma for each field under each update of the state, true by rfl: what every named
operation does to every field, so that no later proof unfolds a record update. -/

namespace Sys2Proof.Machine

variable (s : State)

/-! `report(code)` writes `CODE` and `STICKY` only (R201). -/

@[simp] theorem report_arg0 (c : BitVec 3) : (report c s).arg0 = s.arg0 := rfl
@[simp] theorem report_arg1 (c : BitVec 3) : (report c s).arg1 = s.arg1 := rfl
@[simp] theorem report_res0 (c : BitVec 3) : (report c s).res0 = s.res0 := rfl
@[simp] theorem report_res1 (c : BitVec 3) : (report c s).res1 = s.res1 := rfl
@[simp] theorem report_code (c : BitVec 3) : (report c s).code = c := rfl
@[simp] theorem report_crcOk (c : BitVec 3) : (report c s).crcOk = s.crcOk := rfl
@[simp] theorem report_sticky (c : BitVec 3) : (report c s).sticky = stickyAfter c s.sticky := rfl
@[simp] theorem report_tag (c : BitVec 3) : (report c s).tag = s.tag := rfl
@[simp] theorem report_calcCrc (c : BitVec 3) : (report c s).calcCrc = s.calcCrc := rfl
@[simp] theorem report_acc (c : BitVec 3) : (report c s).acc = s.acc := rfl
@[simp] theorem report_basePage (c : BitVec 3) : (report c s).basePage = s.basePage := rfl
@[simp] theorem report_dewUnit (c : BitVec 3) : (report c s).dewUnit = s.dewUnit := rfl
@[simp] theorem report_inReset (c : BitVec 3) : (report c s).inReset = s.inReset := rfl
@[simp] theorem report_pending (c : BitVec 3) : (report c s).pending = s.pending := rfl
@[simp] theorem report_reads (c : BitVec 3) : (report c s).reads = s.reads := rfl

/-! A conversion's results are `RES1`, `RES0` and `TAG` only (R132 to R134). -/

@[simp] theorem writeConversion_arg0 (fx : Int) (w : RawWord) : (writeConversion fx w s).arg0 = s.arg0 := rfl
@[simp] theorem writeConversion_arg1 (fx : Int) (w : RawWord) : (writeConversion fx w s).arg1 = s.arg1 := rfl
@[simp] theorem writeConversion_res0 (fx : Int) (w : RawWord) : (writeConversion fx w s).res0 = rne32 ⟨fx, 6553600⟩ := rfl
@[simp] theorem writeConversion_res1 (fx : Int) (w : RawWord) : (writeConversion fx w s).res1 = toU32 fx := rfl
@[simp] theorem writeConversion_code (fx : Int) (w : RawWord) : (writeConversion fx w s).code = s.code := rfl
@[simp] theorem writeConversion_crcOk (fx : Int) (w : RawWord) : (writeConversion fx w s).crcOk = s.crcOk := rfl
@[simp] theorem writeConversion_sticky (fx : Int) (w : RawWord) : (writeConversion fx w s).sticky = s.sticky := rfl
@[simp] theorem writeConversion_tag (fx : Int) (w : RawWord) : (writeConversion fx w s).tag = tagOf w := rfl
@[simp] theorem writeConversion_calcCrc (fx : Int) (w : RawWord) : (writeConversion fx w s).calcCrc = s.calcCrc := rfl
@[simp] theorem writeConversion_acc (fx : Int) (w : RawWord) : (writeConversion fx w s).acc = s.acc := rfl
@[simp] theorem writeConversion_basePage (fx : Int) (w : RawWord) : (writeConversion fx w s).basePage = s.basePage := rfl
@[simp] theorem writeConversion_dewUnit (fx : Int) (w : RawWord) : (writeConversion fx w s).dewUnit = s.dewUnit := rfl
@[simp] theorem writeConversion_inReset (fx : Int) (w : RawWord) : (writeConversion fx w s).inReset = s.inReset := rfl
@[simp] theorem writeConversion_pending (fx : Int) (w : RawWord) : (writeConversion fx w s).pending = s.pending := rfl
@[simp] theorem writeConversion_reads (fx : Int) (w : RawWord) : (writeConversion fx w s).reads = s.reads := rfl

/-! A comparison's results are `CALC` and `CRC_OK` only (R112 to R114). -/

@[simp] theorem writeCrc_arg0 (c e : Byte) : (writeCrc c e s).arg0 = s.arg0 := rfl
@[simp] theorem writeCrc_arg1 (c e : Byte) : (writeCrc c e s).arg1 = s.arg1 := rfl
@[simp] theorem writeCrc_res0 (c e : Byte) : (writeCrc c e s).res0 = s.res0 := rfl
@[simp] theorem writeCrc_res1 (c e : Byte) : (writeCrc c e s).res1 = s.res1 := rfl
@[simp] theorem writeCrc_code (c e : Byte) : (writeCrc c e s).code = s.code := rfl
@[simp] theorem writeCrc_crcOk (c e : Byte) : (writeCrc c e s).crcOk = crcOkOf c e := rfl
@[simp] theorem writeCrc_sticky (c e : Byte) : (writeCrc c e s).sticky = s.sticky := rfl
@[simp] theorem writeCrc_tag (c e : Byte) : (writeCrc c e s).tag = s.tag := rfl
@[simp] theorem writeCrc_calcCrc (c e : Byte) : (writeCrc c e s).calcCrc = c := rfl
@[simp] theorem writeCrc_acc (c e : Byte) : (writeCrc c e s).acc = s.acc := rfl
@[simp] theorem writeCrc_basePage (c e : Byte) : (writeCrc c e s).basePage = s.basePage := rfl
@[simp] theorem writeCrc_dewUnit (c e : Byte) : (writeCrc c e s).dewUnit = s.dewUnit := rfl
@[simp] theorem writeCrc_inReset (c e : Byte) : (writeCrc c e s).inReset = s.inReset := rfl
@[simp] theorem writeCrc_pending (c e : Byte) : (writeCrc c e s).pending = s.pending := rfl
@[simp] theorem writeCrc_reads (c e : Byte) : (writeCrc c e s).reads = s.reads := rfl

/-! A read writes no field of the block (R55). -/

@[simp] theorem keepRead_arg0 (x : HostVar) (v : Word) : (keepRead x v s).arg0 = s.arg0 := rfl
@[simp] theorem keepRead_arg1 (x : HostVar) (v : Word) : (keepRead x v s).arg1 = s.arg1 := rfl
@[simp] theorem keepRead_res0 (x : HostVar) (v : Word) : (keepRead x v s).res0 = s.res0 := rfl
@[simp] theorem keepRead_res1 (x : HostVar) (v : Word) : (keepRead x v s).res1 = s.res1 := rfl
@[simp] theorem keepRead_code (x : HostVar) (v : Word) : (keepRead x v s).code = s.code := rfl
@[simp] theorem keepRead_crcOk (x : HostVar) (v : Word) : (keepRead x v s).crcOk = s.crcOk := rfl
@[simp] theorem keepRead_sticky (x : HostVar) (v : Word) : (keepRead x v s).sticky = s.sticky := rfl
@[simp] theorem keepRead_tag (x : HostVar) (v : Word) : (keepRead x v s).tag = s.tag := rfl
@[simp] theorem keepRead_calcCrc (x : HostVar) (v : Word) : (keepRead x v s).calcCrc = s.calcCrc := rfl
@[simp] theorem keepRead_acc (x : HostVar) (v : Word) : (keepRead x v s).acc = s.acc := rfl
@[simp] theorem keepRead_basePage (x : HostVar) (v : Word) : (keepRead x v s).basePage = s.basePage := rfl
@[simp] theorem keepRead_dewUnit (x : HostVar) (v : Word) : (keepRead x v s).dewUnit = s.dewUnit := rfl
@[simp] theorem keepRead_inReset (x : HostVar) (v : Word) : (keepRead x v s).inReset = s.inReset := rfl
@[simp] theorem keepRead_pending (x : HostVar) (v : Word) : (keepRead x v s).pending = s.pending := rfl
@[simp] theorem keepRead_reads (x : HostVar) (v : Word) : (keepRead x v s).reads = (x, v) :: s.reads := rfl

/-! Every field of the block takes its reset value, the host's side stays (R39). -/

@[simp] theorem resetBlock_arg0 : (resetBlock s).arg0 = 0 := rfl
@[simp] theorem resetBlock_arg1 : (resetBlock s).arg1 = 0 := rfl
@[simp] theorem resetBlock_res0 : (resetBlock s).res0 = 0 := rfl
@[simp] theorem resetBlock_res1 : (resetBlock s).res1 = 0 := rfl
@[simp] theorem resetBlock_code : (resetBlock s).code = 0 := rfl
@[simp] theorem resetBlock_crcOk : (resetBlock s).crcOk = false := rfl
@[simp] theorem resetBlock_sticky : (resetBlock s).sticky = false := rfl
@[simp] theorem resetBlock_tag : (resetBlock s).tag = 0 := rfl
@[simp] theorem resetBlock_calcCrc : (resetBlock s).calcCrc = 0 := rfl
@[simp] theorem resetBlock_acc : (resetBlock s).acc = 0 := rfl
@[simp] theorem resetBlock_basePage : (resetBlock s).basePage = s.basePage := rfl
@[simp] theorem resetBlock_dewUnit : (resetBlock s).dewUnit = s.dewUnit := rfl
@[simp] theorem resetBlock_inReset : (resetBlock s).inReset = s.inReset := rfl
@[simp] theorem resetBlock_pending : (resetBlock s).pending = s.pending := rfl
@[simp] theorem resetBlock_reads : (resetBlock s).reads = s.reads := rfl

/-! Reset asserted: the reset values, and the input's level (R230). -/

@[simp] theorem assertReset_arg0 : (assertReset s).arg0 = 0 := rfl
@[simp] theorem assertReset_arg1 : (assertReset s).arg1 = 0 := rfl
@[simp] theorem assertReset_res0 : (assertReset s).res0 = 0 := rfl
@[simp] theorem assertReset_res1 : (assertReset s).res1 = 0 := rfl
@[simp] theorem assertReset_code : (assertReset s).code = 0 := rfl
@[simp] theorem assertReset_crcOk : (assertReset s).crcOk = false := rfl
@[simp] theorem assertReset_sticky : (assertReset s).sticky = false := rfl
@[simp] theorem assertReset_tag : (assertReset s).tag = 0 := rfl
@[simp] theorem assertReset_calcCrc : (assertReset s).calcCrc = 0 := rfl
@[simp] theorem assertReset_acc : (assertReset s).acc = 0 := rfl
@[simp] theorem assertReset_basePage : (assertReset s).basePage = s.basePage := rfl
@[simp] theorem assertReset_dewUnit : (assertReset s).dewUnit = s.dewUnit := rfl
@[simp] theorem assertReset_inReset : (assertReset s).inReset = true := rfl
@[simp] theorem assertReset_pending : (assertReset s).pending = s.pending := rfl
@[simp] theorem assertReset_reads : (assertReset s).reads = s.reads := rfl

end Sys2Proof.Machine
end

