-- ==== Sys2Proof/Laws/Ops.lean ====
section
/-! SUPPORT. For each shared operation, what it can do, said once: later proofs cite these instead
of unfolding the operation. -/

namespace Sys2Proof.Machine

/-! ## Outcomes and comparisons -/

/-- `report(OK)` leaves `STICKY` (R28, R201). -/
@[simp] theorem stickyAfter_ok (b : Bool) : stickyAfter codeOk b = b := by
  simp [stickyAfter]

/-- A report of another code sets `STICKY` (R28, R201). -/
theorem stickyAfter_error {c : BitVec 3} (h : c ≠ codeOk) (b : Bool) : stickyAfter c b = true := by
  simp [stickyAfter, h]

/-- A comparison that matches (R112 to R114). -/
theorem compareCrc_match (c : Byte) (s : State) :
    compareCrc c c s = { s with calcCrc := c, crcOk := true, code := 0 } := by
  simp [compareCrc, report, writeCrc, crcCodeOf, crcOkOf, stickyAfter, codeOk]

/-- A comparison that fails (R112 to R114). -/
theorem compareCrc_mismatch {c e : Byte} (h : c ≠ e) (s : State) :
    compareCrc c e s = { s with calcCrc := c, crcOk := false, code := 1, sticky := true } := by
  have h1 : crcCodeOf c e = 1 := by simp [crcCodeOf, h, codeCrcErr]
  have h2 : crcOkOf c e = false := by simp [crcOkOf, h]
  simp [compareCrc, report, writeCrc, h1, h2, stickyAfter, codeOk]

/-- A measurement whose CRC matches converts (R142, R143). -/
theorem checkThenConvert_match (fx : RawWord → Int) (s : State)
    (h : crc8 [argD1 s.arg0, argD0 s.arg0] = argLowByte s.arg0) :
    checkThenConvert fx s = compareCrc (argLowByte s.arg0) (argLowByte s.arg0)
      (writeConversion (fx (argResponseRaw s.arg0)) (argResponseRaw s.arg0) s) := by
  simp [checkThenConvert, h]

/-- A measurement whose CRC fails leaves the results (R142, R143). -/
theorem checkThenConvert_mismatch (fx : RawWord → Int) (s : State)
    (h : crc8 [argD1 s.arg0, argD0 s.arg0] ≠ argLowByte s.arg0) :
    checkThenConvert fx s = compareCrc (crc8 [argD1 s.arg0, argD0 s.arg0]) (argLowByte s.arg0) s := by
  simp [checkThenConvert, h]

/-! ## The register window -/

/-- The register at an offset, said by the offsets (R51). -/
theorem regAtOffset_eq_some {off : Nat} {r : HostReg} :
    regAtOffset off = some r ↔ off = regOffset r := by
  constructor
  · intro h
    unfold regAtOffset at h
    split at h <;> simp_all <;> subst h <;> rfl
  · rintro rfl
    cases r <;> rfl

/-- Every offset is inside the window (R51). -/
theorem regOffset_lt (r : HostReg) : regOffset r < 32 := by cases r <;> decide

/-- What an admitted access is, whole: 32 bits wide, at a register's address (R52). -/
theorem selectReg_ok {base addr : Nat} {width : AccessWidth} {r : HostReg} :
    selectReg base width addr = .ok r ↔ width = .w32 ∧ addr = base + regOffset r := by
  have hlt := regOffset_lt r
  cases width <;> simp only [selectReg, reduceCtorEq, false_and, true_and]
  by_cases hw : inWindow base addr = true
  · rw [if_pos hw]
    simp only [inWindow, Bool.and_eq_true, decide_eq_true_eq] at hw
    cases hr : regAtOffset (addr - base) with
    | none =>
      simp only [reduceCtorEq, false_iff]
      intro h
      have : regAtOffset (addr - base) = some r := regAtOffset_eq_some.2 (by omega)
      simp [hr] at this
    | some q =>
      have hq := regAtOffset_eq_some.1 hr
      simp only [Except.ok.injEq]
      constructor
      · rintro rfl; omega
      · intro h
        have : regAtOffset (addr - base) = some r := regAtOffset_eq_some.2 (by omega)
        simpa [hr] using this
  · rw [if_neg hw]
    simp only [inWindow, Bool.and_eq_true, decide_eq_true_eq] at hw
    simp only [reduceCtorEq, false_iff]
    omega

/-- What a host write can do (R56, R58): to `CMD` it is the word's execution; otherwise it has a
next state in which at most the operand register written differs. -/
theorem writeReg_next {r : HostReg} {v : Word} {s t : State} (h : writeReg r v s = .next t) :
    (r = .cmd ∧ execute v s = .next t) ∨ (r = .arg0 ∧ t = { s with arg0 := v }) ∨
    (r = .arg1 ∧ t = { s with arg1 := v }) ∨
    ((r = .res0 ∨ r = .res1 ∨ r = .status ∨ r = .crcacc ∨ r = .reserved) ∧ t = s) := by
  cases r <;> simp_all [writeReg]

/-- What an event can do when it has a next state: an access admitted outside reset, a change of
the reset input, or power-up. -/
theorem performEvent_next {e : HostEvent} {s t : State} (h : performEvent e s = .next t) :
    (∃ r x, e = .read .w32 (s.baseAddr + regOffset r) x ∧ s.inReset = false ∧
      t = keepRead x (readReg r s) s) ∨
    (∃ r src v, e = .write .w32 (s.baseAddr + regOffset r) src ∧ s.inReset = false ∧
      sourceValue src s = some v ∧ writeReg r v s = .next t) ∨
    (t = assertReset s ∧ (e = .resetLine true ∨ s.inReset = false ∧ ∃ v, e = .cmdWriteCutByReset v)) ∨
    (e = .resetLine false ∧ t = releaseReset s) ∨
    (e = .powerUp ∧ t = powerUp s) := by
  cases e with
  | read width addr x =>
    simp only [performEvent] at h
    split at h
    · cases h
    · rename_i hr
      simp only [performRead] at h
      split at h
      · cases h
      · rename_i r hsel
        obtain ⟨rfl, rfl⟩ := selectReg_ok.1 hsel
        cases h
        exact .inl ⟨r, x, rfl, by simpa using hr, rfl⟩
  | write width addr src =>
    simp only [performEvent] at h
    split at h
    · cases h
    · rename_i hr
      simp only [performWrite] at h
      split at h
      · cases h
      · rename_i r hsel
        obtain ⟨rfl, rfl⟩ := selectReg_ok.1 hsel
        split at h
        · cases h
        · rename_i v hv
          exact .inr (.inl ⟨r, src, v, rfl, by simpa using hr, hv, h⟩)
  | resetLine b =>
    cases b <;> simp only [performEvent, Host.Outcome.next.injEq] at h
    · exact .inr (.inr (.inr (.inl ⟨rfl, h.symm⟩)))
    · exact .inr (.inr (.inl ⟨h.symm, .inl rfl⟩))
  | cmdWriteCutByReset v =>
    simp only [performEvent] at h
    split at h
    · cases h
    · rename_i hr
      cases h
      exact .inr (.inr (.inl ⟨rfl, .inr ⟨by simpa using hr, v, rfl⟩⟩))
  | powerUp =>
    simp only [performEvent, Host.Outcome.next.injEq] at h
    exact .inr (.inr (.inr (.inr ⟨rfl, h.symm⟩)))

/-- What a step is: nothing outstanding and no change, or the oldest event, whole. -/
theorem step_next {s t : State} (h : step s = .next t) :
    (s.pending = [] ∧ t = s) ∨
    ∃ e rest, s.pending = e :: rest ∧ performEvent e { s with pending := rest } = .next t := by
  unfold step at h
  split at h
  · rename_i hp
    cases h
    exact .inl ⟨hp, rfl⟩
  · rename_i e rest hp
    exact .inr ⟨e, rest, hp, h⟩

/-- A host read of a register of the window, outside reset (R55). -/
theorem step_read {s : State} {rest : List HostEvent} {r : HostReg} {x : HostVar}
    (hr : s.inReset = false)
    (hp : s.pending = .read .w32 (s.baseAddr + regOffset r) x :: rest) :
    step s = .next (keepRead x (readReg r s) { s with pending := rest }) := by
  have hsel : selectReg (State.baseAddr { s with pending := rest }) .w32
      (s.baseAddr + regOffset r) = .ok r := selectReg_ok.2 ⟨rfl, rfl⟩
  unfold step
  rw [hp]
  unfold performEvent performRead
  dsimp only
  rw [if_neg (by simp [hr]), hsel]
  cases r <;> rfl

/-- A host write to a register of the window, outside reset, whose data the host has (R56). -/
theorem step_write {s : State} {rest : List HostEvent} {r : HostReg} {src : Source} {v : Word}
    (hr : s.inReset = false)
    (hp : s.pending = .write .w32 (s.baseAddr + regOffset r) src :: rest)
    (hv : sourceValue src s = some v) :
    step s = writeReg r v { s with pending := rest } := by
  have hsel : selectReg (State.baseAddr { s with pending := rest }) .w32
      (s.baseAddr + regOffset r) = .ok r := selectReg_ok.2 ⟨rfl, rfl⟩
  have hv' : sourceValue src { s with pending := rest } = some v := by
    cases src <;> exact hv
  unfold step
  rw [hp]
  unfold performEvent performWrite
  dsimp only
  rw [if_neg (by simp [hr]), hsel]
  dsimp only
  rw [hv']

/-- The command word the fetch helper places is the next event, and the step runs it. -/
theorem step_withFetchWord (s : State) (nbits w : Nat) :
    step (s.withFetchWord nbits w) =
      execute (BitVec.ofNat 32 (w % 2 ^ nbits)) { s with inReset := false } := by
  have h := @step_write (s.withFetchWord nbits w) s.pending .cmd
    (.lit (BitVec.ofNat 32 (w % 2 ^ nbits))) _ rfl rfl rfl
  rw [h]
  rfl

/-! ## Commands -/

/-- The two finite shapes of `COMP_RH` (R161). -/
theorem execCompRh_finite {s : State} {t h : Int} (ht : f32val s.arg0 = .finite t)
    (hh : f32val s.arg1 = .finite h) :
    execCompRh s = .next (report codeOk { s with res0 := rne32 (compFrac t h) }) := by
  simp [execCompRh, ht, hh]

/-- `DEWPT` on finite operands (R173). -/
theorem execDewpt_finite {s : State} {t h : Int} (ht : f32val s.arg0 = .finite t)
    (hh : f32val s.arg1 = .finite h) :
    execDewpt s = if dewUndefined s.arg0 s.arg1 t h then .next (domainError s)
      else .next (report codeOk { s with res0 := Config.dpImpl s.dewUnit s.arg0 s.arg1 }) := by
  simp [execDewpt, ht, hh]

/-- The host variable set last is the one read (R88). -/
theorem lookupVar_cons (x y : HostVar) (v : Word) (reads : List (HostVar × Word)) :
    lookupVar x ((y, v) :: reads) = if y = x then some v else lookupVar x reads := rfl

end Sys2Proof.Machine
end

