-- ==== Sys2Proof/Laws/PerInstr.lean ====
section
/-! SUPPORT. What holds of every command as syntax, one lemma for each constructor: its word has the
reserved field 0 and an opcode below 0xD (R81, R83). -/

namespace Sys2Proof.Laws.WordFields

open Sys2Proof

/-- The fields of a command's word. -/
def Statement (i : Instr) : Prop :=
  fieldRsv (encode i) = 0 ∧ fieldOpc (encode i) = opcodeOf i ∧ (opcodeOf i).toNat < 0xD ∧
    Instr.wf i = true

theorem nop : Statement .nop := by unfold Statement; decide
theorem crcClr : Statement .crcClr := by unfold Statement; decide
theorem crcByte : Statement .crcByte := by unfold Statement; decide
theorem crcCmp : Statement .crcCmp := by unfold Statement; decide
theorem crcChk1 : Statement .crcChk1 := by unfold Statement; decide
theorem crcChk2 : Statement .crcChk2 := by unfold Statement; decide
theorem convT : Statement .convT := by unfold Statement; decide
theorem convRh : Statement .convRh := by unfold Statement; decide
theorem measT : Statement .measT := by unfold Statement; decide
theorem measRh : Statement .measRh := by unfold Statement; decide
theorem compRh : Statement .compRh := by unfold Statement; decide
theorem dewpt : Statement .dewpt := by unfold Statement; decide
theorem statClr : Statement .statClr := by unfold Statement; decide

end Sys2Proof.Laws.WordFields
end

