-- ==== Sys2Proof/Tests/Slice0.lean ====
section
/-! SUPPORT. The model's own tests.  Expected values are those of 95_test_vectors.md (named in the
comments) or of the rules' own examples.  After them, for every statement with hypotheses, a
concrete case that meets them. -/

namespace Sys2Proof.Tests

open Sys2Proof Sys2Proof.Machine

/-- The reset state with operands (the vectors' `ResetState` and writes to `ARG0`, `ARG1`). -/
def st (a b : Word) : State := { State.reset with arg0 := a, arg1 := b }

/-- The outcome is a next state with this property. -/
def nextIs (p : State → Bool) (o : Host.Outcome State Fault Refusal) : Bool :=
  match o with
  | .next s => p s
  | .fault _ => false
  | .refused _ => false

theorem exists_of_nextIs {p : State → Prop} [DecidablePred p]
    {o : Host.Outcome State Fault Refusal} (h : nextIs (fun s => decide (p s)) o = true) :
    ∃ s, o = .next s ∧ p s := by
  cases o with
  | next s => exact ⟨s, rfl, of_decide_eq_true h⟩
  | fault f => cases h
  | refused q => cases h

/-- The outcome is this fault. -/
def faultIs (f : Fault) (o : Host.Outcome State Fault Refusal) : Bool :=
  match o with
  | .next _ => false
  | .fault g => f == g
  | .refused _ => false

/-- `RES0`, `RES1` and `STATUS` after a command. -/
def results (s : State) : Word × Word × Word := (s.res0, s.res1, statusWord s)

/-- `STATUS` and `CRCACC` after a command. -/
def status (s : State) : Word × Word := (statusWord s, crcaccWord s)

/-! ## Decoding: the words of R83, bit by bit -/

theorem test_decode_control : decode 0b00000000000000000000000000000000 = .ok .nop ∧
    decode 0b00000000000000000000000000001100 = .ok .statClr := by decide

theorem test_decode_crc : decode 0b00000000000000000000000000000001 = .ok .crcClr ∧
    decode 0b00000000000000000000000000000010 = .ok .crcByte ∧
    decode 0b00000000000000000000000000000011 = .ok .crcCmp ∧
    decode 0b00000000000000000000000000000100 = .ok .crcChk1 ∧
    decode 0b00000000000000000000000000000101 = .ok .crcChk2 := by decide

theorem test_decode_conversion : decode 0b00000000000000000000000000000110 = .ok .convT ∧
    decode 0b00000000000000000000000000000111 = .ok .convRh ∧
    decode 0b00000000000000000000000000001000 = .ok .measT ∧
    decode 0b00000000000000000000000000001001 = .ok .measRh := by decide

theorem test_decode_environment : decode 0b00000000000000000000000000001010 = .ok .compRh ∧
    decode 0b00000000000000000000000000001011 = .ok .dewpt := by decide

/-- V-ILL-1 to V-ILL-7. -/
theorem test_decode_illegal : decode 0x0000000D = .error .reservedOpcode ∧
    decode 0x0000000E = .error .reservedOpcode ∧ decode 0x0000000F = .error .reservedOpcode ∧
    decode 0x00000010 = .error .reservedBits ∧ decode 0x00000100 = .error .reservedBits ∧
    decode 0x80000001 = .error .reservedBits ∧ decode 0xFFFFFFFF = .error .reservedBits := by
  decide

/-- Words of R83 as the opcode table numbers their bits. -/
theorem test_decodeTableWord : decodeTableWord 32 0xB = some .dewpt ∧
    decodeTableWord 32 0x10 = none ∧ decodeTableWord 40 0x100000001 = none := by decide

/-! ## Well-formedness: a term each check refuses -/

theorem test_wf_word : commandWordWf 0x0000000C = true ∧ commandWordWf 0x0000000D = false ∧
    commandWordWf 0x00000010 = false := by decide

theorem test_wf_base : baseAddrWf 0x40 = true ∧ baseAddrWf 0x48 = false := by decide

theorem test_wf_access : accessWf 0x40 .w32 0x5C = true ∧ accessWf 0x40 .w8 0x4C = false ∧
    accessWf 0x40 .wider 0x40 = false ∧ accessWf 0x40 .w32 0x46 = false ∧
    accessWf 0x40 .w32 0x60 = false ∧ accessWf 0x40 .w32 0x3C = false := by decide

theorem test_wf_event : eventWf 0x40 (.write .w16 0x40 (.lit 0)) = false ∧
    eventWf 0x40 (.read .w32 0x41 0) = false ∧ eventWf 0x40 (.resetLine true) = true := by decide

theorem test_wf_program : programWf [] [.rd 1 .res0, .wr .arg0 (.var 1), .cmd .dewpt] = true ∧
    programWf [] [.wr .arg0 (.var 1)] = false ∧ programWf [] [.rd 1 .reserved] = false ∧
    programWf [] [.wr .reserved (.lit 0)] = false := by decide

/-! ## Commands, one step each -/

/-- V-CTL-1, V-CTL-2 and V-ILL-6: the start state of section 2.7. -/
def afterError : State :=
  { State.reset with code := 1, sticky := true, calcCrc := 0x7C, acc := 0x7C, res0 := 0x41C57DC0 }

theorem test_nop : nextIs (· == afterError) (exec .nop afterError) = true := by decide

theorem test_statClr :
    nextIs (fun t => status t == (0x00007C00, 0x7C)) (exec .statClr afterError) = true := by decide

theorem test_illegal_word : nextIs (fun t => results t == (0x41C57DC0, 0, 0x00007C22) && t.acc == 0x7C)
    (execute 0x80000001 afterError) = true := by decide

/-- R110's example. -/
theorem test_crcClr :
    nextIs (fun t => status t == (0x00007C20, 0)) (exec .crcClr afterError) = true := by decide

/-- V-CRC-C12, and the second step of the streaming sequence. -/
theorem test_crcByte :
    nextIs (fun t => status t == (0x00000200, 0x02)) (exec .crcByte (st 0x68 0)) = true ∧
    nextIs (fun t => status t == (0x00007C00, 0x7C))
      (exec .crcByte { st 0xFFFFFF3A 0 with acc := 0x02 }) = true := by decide

/-- Steps 3a and 3b of the streaming sequence. -/
theorem test_crcCmp : nextIs (fun t => status t == (0x00007C10, 0x7C))
      (exec .crcCmp { st 0x7C 0 with acc := 0x7C }) = true ∧
    nextIs (fun t => status t == (0x00007C21, 0x7C))
      (exec .crcCmp { st 0x7D 0 with acc := 0x7C }) = true := by decide

/-- V-CRC-C11 and V-CRC-C7. -/
theorem test_crcChk1 :
    nextIs (fun t => status t == (0x00002110, 0)) (exec .crcChk1 (st 0xABCD1221 0)) = true ∧
    nextIs (fun t => status t == (0x0000A721, 0)) (exec .crcChk1 (st 0x3231 0)) = true := by decide

/-- V-CRC-C3 and V-CRC-C6. -/
theorem test_crcChk2 :
    nextIs (fun t => status t == (0x00007C10, 0)) (exec .crcChk2 (st 0xFF683A7C 0)) = true ∧
    nextIs (fun t => status t == (0x00004D21, 0)) (exec .crcChk2 (st 0x00683B7C 0)) = true := by
  decide +kernel

/-- V-CNV-4 and V-CNV-3, temperature. -/
theorem test_convT :
    nextIs (fun t => results t == (0x41C57DC0, 0x09A4A3E0, 0x80)) (exec .convT (st 0xABCD683A 0))
      = true ∧
    nextIs (fun t => results t == (0xC23B5B6B, 0xEDB41290, 0)) (exec .convT (st 0x4 0)) = true := by
  decide

/-- V-CNV-9 and V-CNV-3, humidity. -/
theorem test_convRh :
    nextIs (fun t => results t == (0x42EDFC18, 0x2E7B3CB0, 0xC0)) (exec .convRh (st 0xFFFF 0))
      = true ∧
    nextIs (fun t => results t == (0xC0BFC180, 0xFDA8C350, 0)) (exec .convRh (st 0x4 0)) = true := by
  decide

/-- V-MEAS-7 and V-MEAS-2. -/
theorem test_measT :
    nextIs (fun t => results t == (0x41C57DC0, 0x09A4A3E0, 0x7C90)) (exec .measT (st 0xFF683A7C 0))
      = true ∧
    nextIs (fun t => results t == (0, 0, 0x7C21)) (exec .measT (st 0x00683A7D 0)) = true := by
  decide +kernel

/-- V-MEAS-3 and V-MEAS-4. -/
theorem test_measRh :
    nextIs (fun t => results t == (0x420159D0, 0x0CA1C550, 0x6B50)) (exec .measRh (st 0x004E856B 0))
      = true ∧
    nextIs (fun t => results t == (0, 0, 0x6B21)) (exec .measRh (st 0x004E856A 0)) = true := by
  decide +kernel

/-- V-COMP-4 and V-COMP-18. -/
theorem test_compRh :
    nextIs (fun t => results t == (0x420129A5, 0, 0)) (exec .compRh (st 0x41C57DC0 0x420159D0))
      = true ∧
    nextIs (fun t => results t == (0x7FC00000, 0, 0x23)) (exec .compRh (st 0x7F800001 0)) = true := by
  decide

/-- V-COMP-11 and V-COMP-14: overflow, and a subnormal kept. -/
theorem test_compRh_extremes :
    nextIs (fun t => results t == (0x7F800000, 0, 0)) (exec .compRh (st 0x7F61B1E6 0x7F61B1E6))
      = true ∧
    nextIs (fun t => results t == (0x00000001, 0, 0)) (exec .compRh (st 0x41C80000 0x00000001))
      = true := by decide

/-- V-DP-E2 and V-DP-E7: a negative zero, and the zero denominator. -/
theorem test_dewpt_domain :
    nextIs (fun t => results t == (0x7FC00000, 0, 0x23)) (exec .dewpt (st 0x41C80000 0x80000000))
      = true ∧
    nextIs (fun t => results t == (0x7FC00000, 0, 0x23)) (exec .dewpt (st 0x434CF000 0x49742400))
      = true := by decide

/-- V-DP-1 and V-DP-17: in the domain, OK is reported and the rest is untouched. -/
theorem test_dewpt_ok :
    nextIs (fun t => statusWord t == 0 && t.res1 == 0) (exec .dewpt (st 0x41C80000 0x42480000))
      = true ∧
    nextIs (fun t => statusWord t == 0 && t.res1 == 0) (exec .dewpt (st 0x434CF000 0x49742401))
      = true := by decide

/-! ## Host accesses -/

/-- The reset state with its window at 0x40 and one event to come. -/
def expecting (e : HostEvent) : State := { State.reset with basePage := 2, pending := [e] }

/-- V-HA-2: a write to `RES0` is ignored. -/
theorem test_write_readonly :
    nextIs (· == { expecting (.resetLine false) with pending := [] })
      (step (expecting (.write .w32 0x4C (.lit 0x12345678)))) = true := by decide

/-- V-HA-4: `ARG0` keeps what is written and reads it back. -/
theorem test_write_arg0 :
    nextIs (fun t => t.arg0 == 0xDEADBEEF && readReg .arg0 t == 0xDEADBEEF)
      (step (expecting (.write .w32 0x44 (.lit 0xDEADBEEF)))) = true := by decide

/-- V-HA-7: an 8-bit read, and a 32-bit write at offset 6. -/
theorem test_unadmitted : faultIs .narrowAccess (step (expecting (.read .w8 0x4C 0))) = true ∧
    faultIs .misalignedAccess (step (expecting (.write .w32 0x46 (.lit 0)))) = true := by decide

/-- The fetch helper: the very next step runs the word, from a state in reset too. -/
theorem test_withFetchWord :
    nextIs (fun t => statusWord t == 0x10) (step (State.reset.withFetchWord 32 5)) = true ∧
    nextIs (fun t => statusWord t == 0x22)
      (step ({ State.reset with inReset := true }.withFetchWord 32 0x10)) = true := by
  decide +kernel

/-! ## Witnesses: the hypotheses of the statements are met -/

theorem witness_StepRunsTheCommandWord :
    let s := expecting (.write .w32 0x40 (.lit 0xC))
    let s' := expecting (.write .w32 0x40 (.lit 0xD))
    s.inReset = false ∧ s.pending = .write .w32 (s.baseAddr + 0x00) (.lit 0xC) :: [] ∧
    sourceValue (.lit 0xC) s = some 0xC ∧ decode 0xC = .ok .statClr ∧
    s'.pending = .write .w32 (s'.baseAddr + 0x00) (.lit 0xD) :: [] ∧
    decode 0xD = .error .reservedOpcode := by decide

theorem witness_IllegalWordReportsIllegal :
    (0x10 : Word).extractLsb' 4 28 ≠ 0 ∧ 0xD ≤ ((0xD : Word).extractLsb' 0 4).toNat := by decide

/-- Each way to convert: a raw word, and a response whose CRC matches (R140, R142, R143). -/
theorem witness_FixedPointResultIsExact :
    ConvertsTemp .convT (st 0x0000683A 0) 0x683A ∧ ConvertsTemp .measT (st 0x00683A7C 0) 0x683A ∧
    ConvertsHumidity .convRh (st 0x00004E85 0) 0x4E85 ∧
    ConvertsHumidity .measRh (st 0x004E856B 0) 0x4E85 :=
  ⟨.inl ⟨rfl, by decide +kernel⟩, .inr ⟨rfl, by decide +kernel, by decide +kernel⟩, .inl ⟨rfl, by decide +kernel⟩,
    .inr ⟨rfl, by decide +kernel, by decide +kernel⟩⟩

theorem witness_ConversionsAreCorrectlyRounded :
    ConvertsTemp .measT (st 0x00000000 0) 0x0000 ∧ ConvertsHumidity .convRh (st 0x0000FFFF 0) 0xFFFF :=
  ⟨.inr ⟨rfl, by decide +kernel, by decide +kernel⟩, .inl ⟨rfl, by decide +kernel⟩⟩

/-- An exact temperature (`m = 0x6838`, m mod 100 = 80) and one that is not (`m = 0`). -/
theorem witness_ConversionsExactWhereStated :
    ConvertsTemp .measT (st 0x00683A7C 0) 0x683A ∧ ((0x683A : RawWord) &&& 0xFFFC).toNat % 100 = 80 ∧
    ConvertsTemp .convT (st 0x00000003 0) 0x0003 ∧ ((0x0003 : RawWord) &&& 0xFFFC).toNat % 100 ≠ 80 ∧
    ConvertsHumidity .measRh (st 0x004E856B 0) 0x4E85 :=
  ⟨.inr ⟨rfl, by decide +kernel, by decide +kernel⟩, by decide, .inl ⟨rfl, by decide +kernel⟩,
    by decide, .inr ⟨rfl, by decide +kernel, by decide +kernel⟩⟩

/-- Neighbouring masked words, and a response above a raw word, for both kinds. -/
theorem witness_ConversionsStrictlyIncrease :
    ((0x0003 : RawWord) &&& 0xFFFC).toNat < ((0x0004 : RawWord) &&& 0xFFFC).toNat ∧
    ConvertsTemp .convT (st 3 0) 0x0003 ∧ ConvertsTemp .convT (st 4 0) 0x0004 ∧
    ((0x0004 : RawWord) &&& 0xFFFC).toNat < ((0x4E85 : RawWord) &&& 0xFFFC).toNat ∧
    ConvertsHumidity .convRh (st 4 0) 0x0004 ∧ ConvertsHumidity .measRh (st 0x004E856B 0) 0x4E85 :=
  ⟨by decide, .inl ⟨rfl, by decide +kernel⟩, .inl ⟨rfl, by decide +kernel⟩, by decide,
    .inl ⟨rfl, by decide +kernel⟩, .inr ⟨rfl, by decide +kernel, by decide +kernel⟩⟩

/-- A response, and a raw word that differs from it in the tag only, for both kinds. -/
theorem witness_StatusTagDoesNotChangeTheValue :
    (0x683A : RawWord) &&& 0xFFFC = (0x6839 : RawWord) &&& 0xFFFC ∧
    ConvertsTemp .measT (st 0x00683A7C 0) 0x683A ∧ ConvertsTemp .convT (st 0x6839 0) 0x6839 ∧
    (0x4E85 : RawWord) &&& 0xFFFC = (0x4E86 : RawWord) &&& 0xFFFC ∧
    ConvertsHumidity .measRh (st 0x004E856B 0) 0x4E85 ∧ ConvertsHumidity .convRh (st 0x4E86 0) 0x4E86 :=
  ⟨by decide, .inr ⟨rfl, by decide +kernel, by decide +kernel⟩, .inl ⟨rfl, by decide +kernel⟩,
    by decide, .inr ⟨rfl, by decide +kernel, by decide +kernel⟩, .inl ⟨rfl, by decide +kernel⟩⟩

theorem witness_RneIsCorrectlyRounded : 0 < (⟨1, 3⟩ : Frac).den := by decide

/-- Zero, and a negative number: -6 is the pattern `0xC0C00000` (R141). -/
theorem witness_RoundingIsUnique : IsRne 0 0 ∧ IsRne (-6) 0xC0C00000 := by
  refine ⟨⟨fun _ => rfl, fun h => absurd rfl h⟩,
    isRne_of_exact (by norm_num) ⟨fun _ => by norm_num, fun _ => by decide⟩ (by decide) ?_⟩
  rw [show (0xC0C00000 : Word).toNat % 2 ^ 31 = 0x40C00000 by decide]
  norm_num [magnitudeValue, realOfUnits, f32Units]

theorem witness_CompRhCompletes :
    f32val (st 0x41A00000 0x42480000).arg0 = .finite (20 * 2 ^ 149) ∧
    f32val (st 0x41A00000 0x42480000).arg1 = .finite (50 * 2 ^ 149) ∧
    f32IsFinite (st 0x7FC00000 0).arg0 = false ∧ f32IsFinite (st 0 0xFF800000).arg1 = false := by
  decide

theorem witness_CompRhFollowsTheFormula :
    f32val (st 0x00000001 0x80000000).arg0 = .finite 1 ∧
    f32val (st 0x00000001 0x80000000).arg1 = .finite 0 ∧
    f32IsFinite (st 0x7F800001 0).arg0 = false := by decide

theorem witness_CompRhAt25IsTheHumidity : (st 0x41C80000 0x80000000).arg0 = 0x41C80000 ∧
    f32val (st 0x41C80000 0x80000000).arg1 = .finite 0 := by decide

theorem witness_DewptCompletes :
    f32val (st 0x41C80000 0x00000001).arg0 = .finite (25 * 2 ^ 149) ∧
    f32val (st 0x41C80000 0x00000001).arg1 = .finite 1 ∧ (0 : Int) < 1 ∧
    ¬ ((st 0x41C80000 0x00000001).arg0 = 0x434CF000 ∧ (st 0x41C80000 0x00000001).arg1 = 0x49742400) ∧
    f32IsFinite (st 0x7F800000 0).arg0 = false ∧ f32IsFinite (st 0 0x7FC00000).arg1 = false ∧
    (∃ h : Int, f32val (st 0 0).arg1 = .finite h ∧ h ≤ 0) ∧
    ((st 0x434CF000 0x49742400).arg0 = 0x434CF000 ∧ (st 0x434CF000 0x49742400).arg1 = 0x49742400) :=
  ⟨by decide, by decide, by decide, by decide, by decide, by decide, ⟨0, by decide, by decide⟩,
    by decide⟩

theorem witness_DewDenominatorZeroForOnePair :
    f32val 0x434CF000 = .finite (3279 * 2 ^ 145) ∧ f32val 0x49742400 = .finite (1000000 * 2 ^ 149) ∧
    (0 : Int) < 1000000 * 2 ^ 149 ∧ (st 0x434CF000 0x49742400).arg0 = 0x434CF000 ∧
    (st 0x434CF000 0x49742400).arg1 = 0x49742400 := by decide

/-- `T = 25`, as a real number. -/
theorem real_25 : realOfUnits (25 * 2 ^ 149) = 25 := by norm_num [realOfUnits]

/-- `RH = 50`, as a real number. -/
theorem real_50 : realOfUnits (50 * 2 ^ 149) = 50 := by norm_num [realOfUnits]

/-- `RH = 100`, as a real number. -/
theorem real_100 : realOfUnits (100 * 2 ^ 149) = 100 := by norm_num [realOfUnits]

/-- Each case of the domain that a binary32 operand can meet, and the case outside it. -/
theorem witness_DewptFollowsItsDomain :
    f32IsFinite (st 0x7FC00000 0).arg0 = false ∧
    (f32val (st 0x41C80000 0).arg0 = .finite (25 * 2 ^ 149) ∧
      f32val (st 0x41C80000 0).arg1 = .finite 0 ∧ realOfUnits 0 ≤ 0) ∧
    (f32val (st 0x434CF000 0x49742400).arg0 = .finite (3279 * 2 ^ 145) ∧
      f32val (st 0x434CF000 0x49742400).arg1 = .finite (1000000 * 2 ^ 149) ∧
      log10 (realOfUnits (1000000 * 2 ^ 149) / 100) =
        dewB / (realOfUnits (3279 * 2 ^ 145) + dewC)) ∧
    (f32val (st 0x41C80000 0x42C80000).arg0 = .finite (25 * 2 ^ 149) ∧
      f32val (st 0x41C80000 0x42C80000).arg1 = .finite (100 * 2 ^ 149) ∧
      ¬ (realOfUnits (100 * 2 ^ 149) ≤ 0 ∨ realOfUnits (25 * 2 ^ 149) + dewC = 0 ∨
        log10 (realOfUnits (100 * 2 ^ 149) / 100) = dewB / (realOfUnits (25 * 2 ^ 149) + dewC))) := by
  refine ⟨by decide, ⟨by decide, by decide, by norm_num [realOfUnits]⟩,
    ⟨by decide, by decide, ?_⟩, ⟨by decide, by decide, ?_⟩⟩
  · have h1 : realOfUnits (1000000 * 2 ^ 149) / 100 = 10 ^ (4 : ℝ) := by
      rw [show (4 : ℝ) = ((4 : ℕ) : ℝ) by norm_num, Real.rpow_natCast]
      norm_num [realOfUnits]
    have h2 : dewB / (realOfUnits (3279 * 2 ^ 145) + dewC) = 4 := by
      norm_num [realOfUnits, dewB, dewC]
    rw [h1, h2, log10, Real.logb_rpow (by norm_num) (by norm_num)]
  · rw [real_25, real_100]
    norm_num [dewB, dewC, log10]

theorem rated_25_50 : Rated (realOfUnits (25 * 2 ^ 149)) (realOfUnits (50 * 2 ^ 149)) := by
  rw [real_25, real_50]
  norm_num [Rated]

theorem witness_DewptIsAccurateWhenRated :
    f32val (st 0x41C80000 0x42480000).arg0 = .finite (25 * 2 ^ 149) ∧
    f32val (st 0x41C80000 0x42480000).arg1 = .finite (50 * 2 ^ 149) ∧
    Rated (realOfUnits (25 * 2 ^ 149)) (realOfUnits (50 * 2 ^ 149)) ∧
    (∃ u, exec .dewpt (st 0x41C80000 0x42480000) = .next u ∧ u.code = 0) :=
  ⟨by decide, by decide, rated_25_50, exists_of_nextIs (p := (·.code = 0)) (by decide)⟩

theorem witness_DewPointClosedForm :
    (25 : ℝ) + dewC ≠ 0 ∧ (0 : ℝ) < 100 ∧ log10 (100 * partialPressure 25 / 100) ≠ dewA := by
  refine ⟨by norm_num [dewC], by norm_num, ?_⟩
  rw [← sub_ne_zero, log10_partialPressure 25 100 (by norm_num)]
  norm_num [log10, dewB, dewC]

theorem witness_DewPointLawsInTheRatedRange :
    Rated (-50) 100 ∧ Rated 130 100 ∧ Rated 25 (1 / 100) ∧ Rated 25 125 ∧
    ((-50 : ℝ) < 130 ∧ (1 / 100 : ℝ) < 100 ∧ (100 : ℝ) < 125) ∧
    f32val (st 0xC1200000 0x42C80000).arg0 = .finite (-10 * 2 ^ 149) ∧
    (-10 ≤ realOfUnits (-10 * 2 ^ 149) ∧ realOfUnits (-10 * 2 ^ 149) ≤ 60) ∧
    f32val (st 0x42700000 0x42C80000).arg0 = .finite (60 * 2 ^ 149) ∧
    (-10 ≤ realOfUnits (60 * 2 ^ 149) ∧ realOfUnits (60 * 2 ^ 149) ≤ 60) := by
  refine ⟨by norm_num [Rated], by norm_num [Rated], by norm_num [Rated], by norm_num [Rated],
    by norm_num, by decide, by norm_num [realOfUnits], by decide, by norm_num [realOfUnits]⟩

/-- The dew point at `T = 25`, `RH = 100` is 25, which is the pattern `0x41C80000` (V-DP-2). -/
theorem witness_ReferenceDewPointConforms :
    Rated 25 100 ∧ IsRne (dewExact 25 100) 0x41C80000 ∧
    f32val 0x41C80000 = .finite (25 * 2 ^ 149) ∧ f32val 0x42C80000 = .finite (100 * 2 ^ 149) ∧
    (1 / 2 ^ 17 : ℝ) ≤ 1 / 10 := by
  have h : dewExact 25 100 = 25 := by
    rw [dewExact, log10_partialPressure 25 100 (by norm_num)]
    norm_num [log10, dewB, dewC]
  refine ⟨by norm_num [Rated], ?_, by decide, by decide, by norm_num⟩
  rw [h]
  refine isRne_of_exact (by norm_num) ⟨fun hs => absurd hs (by decide), fun hx => ?_⟩ (by decide) ?_
  · norm_num at hx
  · rw [show (0x41C80000 : Word).toNat % 2 ^ 31 = 0x41C80000 by decide]
    norm_num [magnitudeValue, realOfUnits, f32Units]

/-- An error of one bit, one of five, and a burst of length 8 at the top of the codeword. -/
theorem witness_CrcDetectsSmallErrors :
    (0x000001 : BitVec 24) = (0x00 : Byte) ++ (0x00 : Byte) ++ (0x01 : Byte) ∧
    (List.range 24).countP (fun k => (0x000001 : BitVec 24).getLsbD k) ≤ 3 ∧
    (0x804218 : BitVec 24) = (0x80 : Byte) ++ (0x42 : Byte) ++ (0x18 : Byte) ∧
    (List.range 24).countP (fun k => (0x804218 : BitVec 24).getLsbD k) % 2 = 1 ∧
    (0x804218 : BitVec 24) ≠ 0 ∧
    (0xFF0000 : BitVec 24) = (0xFF : Byte) ++ (0x00 : Byte) ++ (0x00 : Byte) ∧
    (0xFF0000 : BitVec 24) = (0xFF : Byte).setWidth 24 <<< 16 := by decide

theorem witness_StepKeepsTheInvariant : BlockInvariant afterError ∧
    step { afterError with pending := [.powerUp] } = .next { State.reset with basePage := 0 } := by
  refine ⟨?_, rfl⟩
  unfold BlockInvariant
  decide

/-- A state outside reset, and one in it, where a cut-off `CMD` write has no step either. -/
theorem witness_ResetWinsAndLeavesTheResetValues :
    State.reset.inReset = false ∧ { State.reset with inReset := true }.inReset = true ∧
    faultIs .accessInReset
      (performEvent (.cmdWriteCutByReset 6) { State.reset with inReset := true }) = true := by decide

theorem witness_CommandsWriteOnlyTheirFields :
    nextIs (fun t => t.code != 0) (exec .measT (st 0x00683A7D 0)) = true ∧
    nextIs (fun t => t.code == 0 && t.sticky) (exec .measT { afterError with arg0 := 0x00683A7C })
      = true ∧
    nextIs (fun _ => true) (exec .nop State.reset) = true := by
  decide +kernel

theorem witness_EveryCommandReportsOneCode : Instr.crcClr ≠ .nop := by decide

/-- A failed comparison among the writes, and a run without one. -/
theorem witness_StickyRemembersEveryError :
    State.reset.sticky = false ∧ State.reset.code = 0 ∧
    (HostReg.cmd, encode .statClr) ∉ [(HostReg.arg0, (1 : Word)), (.cmd, encode .crcCmp)] ∧
    nextIs (fun t => t.sticky) (afterWrites [(.arg0, 1), (.cmd, encode .crcCmp)] State.reset)
      = true ∧
    nextIs (fun t => !t.sticky) (afterWrites [(.arg0, 0), (.cmd, encode .crcCmp)] State.reset)
      = true := by decide

/-- The first and the last place of the window. -/
theorem witness_EveryAdmittedAccessIsPerformed :
    let s := expecting (.read .w32 0x40 7)
    let s' := expecting (.write .w32 0x5C (.lit 1))
    s.inReset = false ∧ s.baseAddr ≤ 0x40 ∧ 0x40 < s.baseAddr + 32 ∧ 0x40 % 4 = 0 ∧
    s.pending = .read .w32 0x40 7 :: [] ∧
    s'.baseAddr ≤ 0x5C ∧ 0x5C < s'.baseAddr + 32 ∧ 0x5C % 4 = 0 ∧
    s'.pending = .write .w32 0x5C (.lit 1) :: [] ∧ sourceValue (.lit 1) s' = some 1 := by decide

/-- One case for each kind of access that has no step, at the edges of the window. -/
theorem witness_UnadmittedAccessHasNoStep :
    faultIs .narrowAccess (step (expecting (.write .w16 0x40 (.lit 0)))) = true ∧
    faultIs .wideAccess (step (expecting (.read .wider 0x40 0))) = true ∧
    faultIs .misalignedAccess (step (expecting (.read .w32 0x5F 0))) = true ∧
    faultIs .outsideWindow (step (expecting (.read .w32 0x60 0))) = true ∧
    faultIs .outsideWindow (step (expecting (.write .w32 0x3F (.lit 0)))) = true := by decide

theorem witness_HostReadReturnsTheRegister :
    [0x00, 0x04, 0x08, 0x0C, 0x10, 0x14, 0x18, 0x1C].all (fun off =>
      let s := expecting (.read .w32 (0x40 + off) 3)
      !s.inReset && s.pending == [.read .w32 (s.baseAddr + off) 3]) = true := by decide

/-- Each place of the window, a literal and a host variable that has been read. -/
theorem witness_HostWriteStoresOrIsIgnored :
    [0x00, 0x04, 0x08, 0x0C, 0x10, 0x14, 0x18, 0x1C].all (fun off =>
      let s := expecting (.write .w32 (0x40 + off) (.lit 9))
      !s.inReset && s.pending == [.write .w32 (s.baseAddr + off) (.lit 9)]) = true ∧
    sourceValue (.lit 9) State.reset = some 9 ∧
    sourceValue (.var 3) { State.reset with reads := [(3, 7)] } = some 7 := by decide

theorem witness_OnlyCmdWritesAreNotIdempotent : HostReg.arg0 ≠ .cmd := by decide

theorem witness_EveryStoredBitIsReadable : ∀ r, readReg r (st 1 2) = readReg r (st 1 2) :=
  fun _ => rfl

theorem witness_IgnoredOperandBitsDoNotMatter :
    (0xFFFFFF68 : Word) &&& operandBits .crcByte = (st 0x68 0).arg0 &&& operandBits .crcByte ∧
    readsArg1 .crcByte = false ∧ readsArg1 .compRh = true ∧
    (5 : Word) &&& operandBits .compRh = (st 5 6).arg0 &&& operandBits .compRh ∧
    (6 : Word) = (st 5 6).arg1 := by decide

theorem witness_WellFormedProgramsRunToTheEnd :
    let program : List Stmt := [.cmd .nop, .rd 1 .res0, .wr .arg0 (.var 1)]
    let s := State.reset.issue program
    s.inReset = false ∧ s.pending = assemble s.baseAddr program ∧
    programWf (s.reads.map Prod.fst) program = true := by decide

/-- A state outside reset, and operands that are a literal and a host variable. -/
theorem witness_PseudoStatementsRunTheirCommands :
    let s := { State.reset with reads := [(3, 7)] }
    s.inReset = false ∧ sourceValue (.lit 9) s = some 9 ∧ sourceValue (.var 3) s = some 7 := by
  decide

/-- Two blocks, with windows at 0x00 and 0x20. -/
theorem witness_BlocksShareNothing :
    let p : Platform := [State.reset, { State.reset with basePage := 1 }]
    Platform.windowsApart p ∧ p[1]? = some { State.reset with basePage := 1 } ∧
    inWindow { State.reset with basePage := 1 }.baseAddr 0x3F = true := by
  refine ⟨?_, rfl, by decide⟩
  unfold Platform.windowsApart
  decide

end Sys2Proof.Tests
end

section
/-! PROOFS. Correct rounding (R10): what `IsRne` says is a sign and a nearest magnitude; that a
nearest magnitude exists and is unique; that `rne32` computes it. -/

namespace Sys2Proof.Machine

/-! ### Sign and magnitude -/

/-- The word with a sign bit and a magnitude, put together as `rne32` does. -/
def signedPattern (neg : Bool) (n : Nat) : Word :=
  BitVec.ofNat 32 ((if neg then 2 ^ 31 else 0) + n)

theorem f32Sign_signedPattern (neg : Bool) {n : Nat} (hn : n < 2 ^ 31) :
    f32Sign (signedPattern neg n) = neg := by
  have h := (f32_fields (Nat.mod_lt n (by norm_num : 0 < 2 ^ 23))
    (by omega : n / 2 ^ 23 < 256) neg).1
  rwa [Nat.div_add_mod'] at h

theorem magnitude_signedPattern (neg : Bool) {n : Nat} (hn : n < 2 ^ 31) :
    (signedPattern neg n).toNat % 2 ^ 31 = n := by
  rw [signedPattern, BitVec.toNat_ofNat]
  cases neg <;> simp <;> omega

/-- A word is its sign and its magnitude. -/
theorem eq_of_sign_eq_of_magnitude_eq {a b : Word} (hs : f32Sign a = f32Sign b)
    (hm : a.toNat % 2 ^ 31 = b.toNat % 2 ^ 31) : a = b := by
  have ha := a.isLt
  have hb := b.isLt
  simp only [f32Sign, BitVec.getLsbD, Nat.testBit_eq_decide_div_mod_eq, decide_eq_decide] at hs
  exact BitVec.eq_of_toNat_eq (by omega)

/-! ### Nearest magnitudes -/

/-- `n` is the magnitude nearest `y`, ties to even: what `IsRne` says of the magnitude alone. -/
def NearestMagnitude (y : ℝ) (n : Nat) : Prop :=
  n ≤ 0x7F800000 ∧
  ∀ m ≤ 0x7F800000, m ≠ n →
    |magnitudeValue n - y| < |magnitudeValue m - y| ∨
    (|magnitudeValue n - y| = |magnitudeValue m - y| ∧ n % 2 = 0)

theorem isRne_zero_iff (b : Word) : IsRne 0 b ↔ b = 0 := by
  simp [IsRne]

theorem isRne_iff_of_ne_zero {x : ℝ} (hx : x ≠ 0) (b : Word) :
    IsRne x b ↔ (f32Sign b = true ↔ x < 0) ∧ NearestMagnitude |x| (b.toNat % 2 ^ 31) := by
  have heven : b.toNat % 2 ^ 31 % 2 = b.toNat % 2 := Nat.mod_mod_of_dvd _ (by norm_num)
  simp only [IsRne, NearestMagnitude, heven, hx, false_imp_iff, true_and, ne_eq,
    not_false_eq_true, true_imp_iff]

theorem isRne_signedPattern {x : ℝ} {neg : Bool} {n : Nat} (hx : x ≠ 0)
    (hneg : neg = true ↔ x < 0) (hn : NearestMagnitude |x| n) : IsRne x (signedPattern neg n) := by
  have hlt : n < 2 ^ 31 := lt_of_le_of_lt hn.1 (by norm_num)
  rw [isRne_iff_of_ne_zero hx, f32Sign_signedPattern neg hlt, magnitude_signedPattern neg hlt]
  exact ⟨hneg, hn⟩

/-- Of two numbers the greater is the nearer to `y` when `y` is above their midpoint. -/
theorem abs_sub_lt_abs_sub_of_add_lt {u v y : ℝ} (huv : u < v) (h : u + v < 2 * y) :
    |v - y| < |u - y| := by
  rw [abs_of_neg (by linarith : u - y < 0), abs_lt]
  constructor <;> linarith

/-- Of two numbers the smaller is the nearer to `y` when `y` is below their midpoint. -/
theorem abs_sub_lt_abs_sub_of_lt_add {u v y : ℝ} (huv : u < v) (h : 2 * y < u + v) :
    |u - y| < |v - y| := by
  rw [abs_of_pos (by linarith : 0 < v - y), abs_lt]
  constructor <;> linarith

/-- Two numbers are as near to their midpoint. -/
theorem abs_sub_eq_abs_sub_of_add_eq {u v y : ℝ} (h : u + v = 2 * y) : |u - y| = |v - y| := by
  rw [show u - y = -(v - y) by linarith, abs_neg]

/-- `p` lies between the midpoints to every lower and every higher magnitude, infinity's pattern
being no bound here, and `p` is even where a midpoint is met. -/
structure BetweenMidpoints (y : ℝ) (p : Nat) : Prop where
  below : ∀ m < p, magnitudeValue m + magnitudeValue p < 2 * y ∨
    (magnitudeValue m + magnitudeValue p = 2 * y ∧ p % 2 = 0)
  above : ∀ m > p, 2 * y < magnitudeValue p + magnitudeValue m ∨
    (magnitudeValue p + magnitudeValue m = 2 * y ∧ p % 2 = 0)

/-- Cut at infinity, a magnitude between its midpoints is the nearest one. -/
theorem BetweenMidpoints.nearest_min {y : ℝ} {p : Nat} (hp : BetweenMidpoints y p) :
    NearestMagnitude y (min p 0x7F800000) := by
  refine ⟨min_le_right _ _, fun m hm hne => ?_⟩
  rcases le_or_gt p 0x7F800000 with hfin | hover
  · rw [min_eq_left hfin] at hne ⊢
    rcases Nat.lt_or_gt_of_ne hne with hlt | hgt
    · exact (hp.below m hlt).imp (abs_sub_lt_abs_sub_of_add_lt (magnitudeValue_strictMono hlt))
        fun ⟨htie, heven⟩ => ⟨(abs_sub_eq_abs_sub_of_add_eq htie).symm, heven⟩
    · exact (hp.above m hgt).imp (abs_sub_lt_abs_sub_of_lt_add (magnitudeValue_strictMono hgt))
        fun ⟨htie, heven⟩ => ⟨abs_sub_eq_abs_sub_of_add_eq htie, heven⟩
  · rw [min_eq_right hover.le] at hne ⊢
    have hlt : m < 0x7F800000 := lt_of_le_of_ne hm hne
    have hmid : magnitudeValue m + magnitudeValue p ≤ 2 * y :=
      (hp.below m (hlt.trans hover)).elim le_of_lt fun h => h.1.le
    have hcut : magnitudeValue 0x7F800000 < magnitudeValue p := magnitudeValue_strictMono hover
    exact .inl (abs_sub_lt_abs_sub_of_add_lt (magnitudeValue_strictMono hlt) (by linarith))

/-! ### Existence and uniqueness -/

/-- Two magnitudes of one parity that are as near to `y` have a strictly nearer one between them. -/
theorem exists_nearer_of_tie {y : ℝ} {a b : Nat} (hab : a < b) (hparity : a % 2 = b % 2)
    (htie : |magnitudeValue a - y| = |magnitudeValue b - y|) :
    ∃ m, a < m ∧ m < b ∧ |magnitudeValue m - y| < |magnitudeValue a - y| := by
  have ha : magnitudeValue a < magnitudeValue (a + 1) := magnitudeValue_strictMono (by omega)
  have hb : magnitudeValue (a + 1) < magnitudeValue b := magnitudeValue_strictMono (by omega)
  have hmid : magnitudeValue a + magnitudeValue b = 2 * y := by
    rcases abs_eq_abs.1 htie with h | h <;> linarith
  exact ⟨a + 1, by omega, by omega, abs_sub_lt_abs_sub_of_add_lt ha (by linarith)⟩

/-- The nearest magnitude exists: the least by distance, then by parity. -/
theorem exists_nearestMagnitude (y : ℝ) : ∃ n, NearestMagnitude y n := by
  obtain ⟨n, hn, hmin⟩ := (Finset.range (0x7F800000 + 1)).exists_min_image
    (fun m => toLex (|magnitudeValue m - y|, m % 2)) ⟨0, Finset.mem_range.2 (by norm_num)⟩
  simp only [Finset.mem_range, Nat.lt_succ_iff, Prod.Lex.toLex_le_toLex] at hn hmin
  refine ⟨n, hn, fun m hm hne => (hmin m hm).imp_right fun ⟨htie, hparity⟩ => ⟨htie, ?_⟩⟩
  by_contra hodd
  obtain ⟨k, hk, hnearer⟩ : ∃ k ≤ 0x7F800000, |magnitudeValue k - y| < |magnitudeValue n - y| := by
    rcases Nat.lt_or_gt_of_ne hne with h | h
    · obtain ⟨k, -, hk, hlt⟩ := exists_nearer_of_tie h (by omega) htie.symm
      exact ⟨k, by omega, htie ▸ hlt⟩
    · obtain ⟨k, -, hk, hlt⟩ := exists_nearer_of_tie h (by omega) htie
      exact ⟨k, by omega, hlt⟩
  rcases hmin k hk with h | ⟨h, -⟩ <;> linarith

theorem NearestMagnitude.dist_le {y : ℝ} {n m : Nat} (hn : NearestMagnitude y n)
    (hm : m ≤ 0x7F800000) : |magnitudeValue n - y| ≤ |magnitudeValue m - y| := by
  rcases eq_or_ne m n with rfl | hne
  · exact le_rfl
  · exact (hn.2 m hm hne).elim le_of_lt fun h => h.1.le

theorem NearestMagnitude.even_of_tie {y : ℝ} {n m : Nat} (hn : NearestMagnitude y n)
    (hm : m ≤ 0x7F800000) (hne : m ≠ n)
    (htie : |magnitudeValue n - y| = |magnitudeValue m - y|) : n % 2 = 0 :=
  ((hn.2 m hm hne).resolve_left htie.not_lt).2

/-- A nearest magnitude is not above another one: there would be a nearer one between them. -/
theorem NearestMagnitude.le {y : ℝ} {a b : Nat} (ha : NearestMagnitude y a)
    (hb : NearestMagnitude y b) : a ≤ b := by
  by_contra hlt
  rw [not_le] at hlt
  have htie : |magnitudeValue b - y| = |magnitudeValue a - y| :=
    le_antisymm (hb.dist_le ha.1) (ha.dist_le hb.1)
  have hae : a % 2 = 0 := ha.even_of_tie hb.1 hlt.ne htie.symm
  have hbe : b % 2 = 0 := hb.even_of_tie ha.1 hlt.ne' htie
  obtain ⟨m, -, hma, hnearer⟩ := exists_nearer_of_tie hlt (hbe.trans hae.symm) htie
  exact hnearer.not_ge (hb.dist_le (hma.le.trans ha.1))

theorem exists_isRne (x : ℝ) : ∃ b, IsRne x b := by
  by_cases hx : x = 0
  · exact ⟨0, by rw [hx, isRne_zero_iff]⟩
  · obtain ⟨n, hn⟩ := exists_nearestMagnitude |x|
    by_cases hneg : x < 0
    · exact ⟨_, isRne_signedPattern (neg := true) hx (by simpa) hn⟩
    · exact ⟨_, isRne_signedPattern (neg := false) hx (by simpa using hneg) hn⟩

theorem IsRne.unique {x : ℝ} {a b : Word} (ha : IsRne x a) (hb : IsRne x b) : a = b := by
  by_cases hx : x = 0
  · rw [ha.1 hx, hb.1 hx]
  · obtain ⟨hsa, hma⟩ := (isRne_iff_of_ne_zero hx a).1 ha
    obtain ⟨hsb, hmb⟩ := (isRne_iff_of_ne_zero hx b).1 hb
    exact eq_of_sign_eq_of_magnitude_eq (Bool.eq_iff_iff.2 (hsa.trans hsb.symm))
      (le_antisymm (hma.le hmb) (hmb.le hma))

theorem isRne_roundReal (x : ℝ) : IsRne x (roundReal x) := Classical.epsilon_spec (exists_isRne x)

/-! ### `rne32` -/

/-- The units of `2^-149` of a magnitude pattern. -/
def magnitudeUnits (m : Nat) : Nat := f32Units (m / 2 ^ 23) (m % 2 ^ 23)

theorem magnitudeValue_eq (m : Nat) : magnitudeValue m = (magnitudeUnits m : ℝ) / 2 ^ 149 := by
  rw [magnitudeValue, realOfUnits, magnitudeUnits, Int.cast_natCast]

/-- A magnitude is at least one spacing above every lower one. -/
theorem magnitudeUnits_add_spacing_le {m n k : Nat} (hmn : m < n)
    (hk : k = 0 ∨ (k + 1) * 2 ^ 23 < n) : magnitudeUnits m + 2 ^ k ≤ magnitudeUnits n := by
  obtain ⟨n, rfl⟩ : ∃ n', n = n' + 1 := ⟨n - 1, by omega⟩
  have hle : magnitudeUnits m ≤ magnitudeUnits n := f32Units_strictMono.monotone (by omega)
  have hpow : 2 ^ k ≤ 2 ^ (n / 2 ^ 23 - 1) := Nat.pow_le_pow_right (by norm_num) (by omega)
  have hsucc : magnitudeUnits (n + 1) = magnitudeUnits n + 2 ^ (n / 2 ^ 23 - 1) := f32Units_succ n
  omega

/-- The pattern with the significand `r` at the spacing `2^k` has `r * 2^k` units, also where `r`
carries into the exponent. -/
theorem magnitudeUnits_significand {k r : Nat} (hr : r ≤ 2 ^ 24) (hk : k = 0 ∨ 2 ^ 23 ≤ r) :
    magnitudeUnits (k * 2 ^ 23 + r) = r * 2 ^ k := by
  unfold magnitudeUnits f32Units
  rcases Nat.lt_or_ge r (2 ^ 23) with hsub | hnorm
  · obtain rfl : k = 0 := by omega
    rw [if_pos (by omega)]
    omega
  rw [if_neg (by omega)]
  rcases hr.lt_or_eq with hlt | rfl
  · rw [show (k * 2 ^ 23 + r) / 2 ^ 23 - 1 = k by omega,
      show 2 ^ 23 + (k * 2 ^ 23 + r) % 2 ^ 23 = r by omega]
  · rw [show (k * 2 ^ 23 + 2 ^ 24) / 2 ^ 23 - 1 = k + 1 by omega,
      show (k * 2 ^ 23 + 2 ^ 24) % 2 ^ 23 = 0 by omega]
    ring

theorem lt_two_pow_f32Spacing (q : Nat) : q < 2 ^ 24 * 2 ^ f32Spacing q := by
  rw [← Nat.pow_add]
  exact Nat.lt_log2_self.trans_le
    (Nat.pow_le_pow_right (by norm_num) (by unfold f32Spacing; omega))

theorem two_pow_f32Spacing_le {q : Nat} (hq : f32Spacing q ≠ 0) : 2 ^ 23 * 2 ^ f32Spacing q ≤ q := by
  have hlog : 23 + f32Spacing q = Nat.log2 q := by unfold f32Spacing at *; omega
  rw [← Nat.pow_add, hlog]
  exact Nat.log2_self_le (by rintro rfl; exact hq (by decide))

/-- The spacing near `a / d` units, over the denominator `d`. -/
def scaledSpacing (a d : Nat) : Nat := d * 2 ^ f32Spacing (a / d)

/-- The rounded significand of `a / d` units, a whole number of spacings. -/
def roundedSignificand (a d : Nat) : Nat := roundHalfEven a (scaledSpacing a d)

/-- The magnitude of `f32RoundMag` before it is cut at infinity. -/
def unboundedMag (a d : Nat) : Nat := f32Spacing (a / d) * 2 ^ 23 + roundedSignificand a d

theorem f32RoundMag_eq_min (a d : Nat) :
    f32RoundMag a d = min (unboundedMag a d) 0x7F800000 := rfl

theorem unboundedMag_mod_two (a d : Nat) :
    unboundedMag a d % 2 = roundedSignificand a d % 2 := by
  unfold unboundedMag
  omega

section
variable {a d : Nat} (hd : 0 < d)
include hd

theorem lt_scaledSpacing : a < 2 ^ 24 * scaledSpacing a d := by
  rw [scaledSpacing, Nat.mul_comm d, ← Nat.mul_assoc]
  exact (Nat.div_lt_iff_lt_mul hd).1 (lt_two_pow_f32Spacing (a / d))

theorem scaledSpacing_le (hk : f32Spacing (a / d) ≠ 0) : 2 ^ 23 * scaledSpacing a d ≤ a := by
  rw [scaledSpacing, Nat.mul_comm d, ← Nat.mul_assoc]
  exact (Nat.le_div_iff_mul_le hd).1 (two_pow_f32Spacing_le hk)

/-- `roundHalfEven_near` for the significand. -/
theorem roundedSignificand_near :
    2 * (roundedSignificand a d * scaledSpacing a d) ≤ 2 * a + scaledSpacing a d ∧
    2 * a ≤ 2 * (roundedSignificand a d * scaledSpacing a d) + scaledSpacing a d ∧
    (2 * (roundedSignificand a d * scaledSpacing a d) = 2 * a + scaledSpacing a d ∨
      2 * a = 2 * (roundedSignificand a d * scaledSpacing a d) + scaledSpacing a d →
        roundedSignificand a d % 2 = 0) :=
  roundHalfEven_near (Nat.mul_pos hd (by positivity))

theorem roundedSignificand_le : roundedSignificand a d ≤ 2 ^ 24 := by
  obtain ⟨hup, -, -⟩ := roundedSignificand_near (a := a) hd
  have hlt := lt_scaledSpacing (a := a) hd
  by_contra h
  have hmul : (2 ^ 24 + 1) * scaledSpacing a d ≤ roundedSignificand a d * scaledSpacing a d :=
    Nat.mul_le_mul_right _ (by omega)
  omega

theorem le_roundedSignificand (hk : f32Spacing (a / d) ≠ 0) :
    2 ^ 23 ≤ roundedSignificand a d := by
  obtain ⟨-, hlo, -⟩ := roundedSignificand_near (a := a) hd
  have hle := scaledSpacing_le hd hk
  have hlt := lt_scaledSpacing (a := a) hd
  by_contra h
  have hmul : (roundedSignificand a d + 1) * scaledSpacing a d ≤ 2 ^ 23 * scaledSpacing a d :=
    Nat.mul_le_mul_right _ (by omega)
  rw [Nat.add_mul] at hmul
  omega

/-- The rounded magnitude is the rounded number of spacings. -/
theorem magnitudeUnits_unboundedMag_mul :
    magnitudeUnits (unboundedMag a d) * d = roundedSignificand a d * scaledSpacing a d := by
  rw [unboundedMag, magnitudeUnits_significand (roundedSignificand_le hd)
    (or_iff_not_imp_left.2 (le_roundedSignificand hd)), scaledSpacing]
  ring

omit hd in
/-- `magnitudeUnits_add_spacing_le` over the denominator `d`. -/
theorem magnitudeUnits_mul_add_scaledSpacing_le {m n : Nat} (hmn : m < n)
    (hn : f32Spacing (a / d) ≠ 0 → (f32Spacing (a / d) + 1) * 2 ^ 23 < n) :
    magnitudeUnits m * d + scaledSpacing a d ≤ magnitudeUnits n * d := by
  rw [scaledSpacing, Nat.mul_comm d, ← Nat.add_mul]
  exact Nat.mul_le_mul_right d
    (magnitudeUnits_add_spacing_le hmn (or_iff_not_imp_left.2 hn))

/-- `BetweenMidpoints.below` in whole numbers.  Where the significand is the least one of its
exponent the spacing below is half, but there `a / d` is not below the rounded magnitude. -/
theorem unboundedMag_below {m : Nat} (hm : m < unboundedMag a d) :
    (magnitudeUnits m + magnitudeUnits (unboundedMag a d)) * d < 2 * a ∨
    ((magnitudeUnits m + magnitudeUnits (unboundedMag a d)) * d = 2 * a ∧
      unboundedMag a d % 2 = 0) := by
  rw [Nat.add_mul, unboundedMag_mod_two]
  by_cases hleast : f32Spacing (a / d) ≠ 0 ∧ roundedSignificand a d = 2 ^ 23
  · obtain ⟨hk, hr⟩ := hleast
    have hle : magnitudeUnits (unboundedMag a d) * d ≤ a := by
      rw [magnitudeUnits_unboundedMag_mul hd, hr]
      exact scaledSpacing_le hd hk
    have hlt : magnitudeUnits m * d < magnitudeUnits (unboundedMag a d) * d :=
      Nat.mul_lt_mul_of_pos_right (f32Units_strictMono hm) hd
    omega
  · have hgap := magnitudeUnits_mul_add_scaledSpacing_le (a := a) hm fun hk => by
      have := le_roundedSignificand hd hk
      unfold unboundedMag
      omega
    obtain ⟨hup, -, heven⟩ := roundedSignificand_near (a := a) hd
    rw [← magnitudeUnits_unboundedMag_mul hd] at hup heven
    omega

/-- `BetweenMidpoints.above` in whole numbers. -/
theorem unboundedMag_above {m : Nat} (hm : unboundedMag a d < m) :
    2 * a < (magnitudeUnits (unboundedMag a d) + magnitudeUnits m) * d ∨
    ((magnitudeUnits (unboundedMag a d) + magnitudeUnits m) * d = 2 * a ∧
      unboundedMag a d % 2 = 0) := by
  rw [Nat.add_mul, unboundedMag_mod_two]
  have hgap := magnitudeUnits_mul_add_scaledSpacing_le (a := a) hm fun hk => by
    have := le_roundedSignificand hd hk
    unfold unboundedMag at hm
    omega
  obtain ⟨-, hlo, heven⟩ := roundedSignificand_near (a := a) hd
  rw [← magnitudeUnits_unboundedMag_mul hd] at hlo heven
  omega

/-- A midpoint of two magnitudes against `a / d` units, in whole numbers. -/
theorem magnitudeValue_add_eq (m n : Nat) : magnitudeValue m + magnitudeValue n =
    (((magnitudeUnits m + magnitudeUnits n) * d : Nat) : ℝ) / (d * 2 ^ 149) := by
  have hd' : (d : ℝ) ≠ 0 := by positivity
  rw [magnitudeValue_eq, magnitudeValue_eq]
  push_cast
  field_simp

theorem betweenMidpoints_unboundedMag :
    BetweenMidpoints ((a : ℝ) / (d * 2 ^ 149)) (unboundedMag a d) := by
  have hpos : (0 : ℝ) < d * 2 ^ 149 := by positivity
  have htwice : 2 * ((a : ℝ) / (d * 2 ^ 149)) = ((2 * a : Nat) : ℝ) / (d * 2 ^ 149) := by
    push_cast
    ring
  constructor
  all_goals
    intro m hm
    rw [magnitudeValue_add_eq hd, htwice, div_lt_div_iff_of_pos_right hpos,
      div_left_inj' hpos.ne', Nat.cast_lt, Nat.cast_inj]
  · exact unboundedMag_below hd hm
  · exact unboundedMag_above hd hm

theorem nearestMagnitude_f32RoundMag :
    NearestMagnitude ((a : ℝ) / (d * 2 ^ 149)) (f32RoundMag a d) := by
  rw [f32RoundMag_eq_min]
  exact (betweenMidpoints_unboundedMag hd).nearest_min

end

theorem abs_fracToReal (q : Frac) :
    |fracToReal q| = ((q.num.natAbs * 2 ^ 149 : Nat) : ℝ) / (q.den * 2 ^ 149) := by
  rw [fracToReal, abs_div, Nat.abs_cast, Nat.cast_mul, Nat.cast_natAbs, Int.cast_abs, Nat.cast_pow,
    Nat.cast_ofNat, mul_div_mul_right _ _ (by positivity)]

theorem rne32_of_num_ne_zero {q : Frac} (hq : q.num ≠ 0) :
    rne32 q = signedPattern (decide (q.num < 0)) (f32RoundMag (q.num.natAbs * 2 ^ 149) q.den) := by
  simp [rne32, signedPattern, hq]

theorem isRne_rne32 {q : Frac} (hd : 0 < q.den) : IsRne (fracToReal q) (rne32 q) := by
  have hden : (0 : ℝ) < q.den := Nat.cast_pos.2 hd
  by_cases hq : q.num = 0
  · simp [fracToReal, rne32, hq, isRne_zero_iff]
  · rw [rne32_of_num_ne_zero hq]
    refine isRne_signedPattern ?_ ?_ ?_
    · exact div_ne_zero (Int.cast_ne_zero.2 hq) hden.ne'
    · rw [decide_eq_true_iff, fracToReal, div_lt_iff₀ hden, zero_mul, Int.cast_lt_zero]
    · rw [abs_fracToReal]
      exact nearestMagnitude_f32RoundMag hd

/-- Settles O22: the rounded significand lies between the midpoints to the neighbouring magnitudes,
and the cut at the pattern of infinity keeps the nearest. -/
theorem rneIsCorrectlyRounded : Obligations.RneIsCorrectlyRounded :=
  fun _ hd => isRne_rne32 hd

/-- Settles O23: the least magnitude by distance and then by parity exists, and of two such there
would be a nearer one between. -/
theorem roundingIsUnique : Obligations.RoundingIsUnique :=
  ⟨isRne_roundReal, fun _ _ _ => IsRne.unique⟩

end Sys2Proof.Machine
end

section
/-! PROOFS. The state (R20 to R39): the layout of `STATUS` and `CRCACC`; the one lemma that says
what a command can do to the state and from which fields it chooses it; and from that lemma the
write matrix, the flags that are never inputs and the invariant every step keeps. -/

namespace Sys2Proof.Machine

/-! ### Registers as words (R26, R31, R32) -/

@[simp] theorem statusWord_code (s : State) : (statusWord s).extractLsb' 0 3 = s.code := by
  rw [statusWord, BitVec.extractLsb'_setWidth_of_le (by decide), BitVec.extractLsb'_append_eq_right]

@[simp] theorem statusWord_tag (s : State) : (statusWord s).extractLsb' 6 2 = s.tag := by
  rw [statusWord, BitVec.extractLsb'_setWidth_of_le (by decide)]
  iterate 4 rw [BitVec.extractLsb'_append_eq_of_le (by decide)]
  exact BitVec.extractLsb'_append_eq_right

@[simp] theorem statusWord_calcCrc (s : State) : (statusWord s).extractLsb' 8 8 = s.calcCrc := by
  rw [statusWord, BitVec.extractLsb'_setWidth_of_le (by decide)]
  iterate 4 rw [BitVec.extractLsb'_append_eq_of_le (by decide)]
  exact BitVec.extractLsb'_append_eq_left

/-- The single bits of `STATUS[5:3]`: the reserved bit, `CRC_OK` and `STICKY`. -/
theorem statusWord_bits (s : State) :
    (statusWord s).getLsbD 3 = false ∧ (statusWord s).getLsbD 4 = s.crcOk ∧
      (statusWord s).getLsbD 5 = s.sticky := by
  simp only [statusWord, BitVec.getLsbD_setWidth, BitVec.getLsbD_append]
  simp

/-- A zero extension reads 0 above the word it extends. -/
theorem extractLsb'_setWidth_eq_zero {n m start len : Nat} (x : BitVec n) (h : n ≤ start) :
    (x.setWidth m).extractLsb' start len = 0 := by
  ext i hi
  simp [BitVec.getLsbD_of_ge x (start + i) (by omega)]

/-- `STATUS[31:16]` is the zero extension. -/
theorem statusWord_reserved (s : State) : (statusWord s).extractLsb' 16 16 = 0 :=
  extractLsb'_setWidth_eq_zero _ (by decide)

@[simp] theorem crcaccWord_acc (s : State) : (crcaccWord s).extractLsb' 0 8 = s.acc := by
  simp [crcaccWord, BitVec.extractLsb'_setWidth_of_le]

theorem crcaccWord_reserved (s : State) : (crcaccWord s).extractLsb' 8 24 = 0 :=
  extractLsb'_setWidth_eq_zero _ (by decide)

/-- Settles O51: `STATUS` is one concatenation, so each field is the piece at its place, and the
bits of the zero extension are 0. -/
theorem statusAndCrcaccLayout : Obligations.StatusAndCrcaccLayout := by
  intro s
  obtain ⟨hreserved, hcrcOk, hsticky⟩ := statusWord_bits s
  exact ⟨statusWord_code s, hreserved, hcrcOk, hsticky, statusWord_tag s, statusWord_calcCrc s,
    statusWord_reserved s, crcaccWord_acc s, crcaccWord_reserved s⟩

/-- The fields of two equal `STATUS` words are equal. -/
theorem fields_eq_of_statusWord_eq {s t : State} (h : statusWord s = statusWord t) :
    s.code = t.code ∧ s.crcOk = t.crcOk ∧ s.sticky = t.sticky ∧ s.tag = t.tag ∧
      s.calcCrc = t.calcCrc := by
  obtain ⟨-, hsOk, hsSticky⟩ := statusWord_bits s
  obtain ⟨-, htOk, htSticky⟩ := statusWord_bits t
  refine ⟨?_, ?_, ?_, ?_, ?_⟩
  · rw [← statusWord_code, h, statusWord_code]
  · rw [← hsOk, h, htOk]
  · rw [← hsSticky, h, htSticky]
  · rw [← statusWord_tag, h, statusWord_tag]
  · rw [← statusWord_calcCrc, h, statusWord_calcCrc]

theorem acc_eq_of_crcaccWord_eq {s t : State} (h : crcaccWord s = crcaccWord t) :
    s.acc = t.acc := by
  rw [← crcaccWord_acc, h, crcaccWord_acc]

/-- Settles O54: `ARG0` to `RES1` are registers of their own, and the six other fields are pieces of
`STATUS` and `CRCACC`. -/
theorem everyStoredBitIsReadable : Obligations.EveryStoredBitIsReadable := by
  intro s t h
  obtain ⟨hcode, hcrcOk, hsticky, htag, hcalc⟩ := fields_eq_of_statusWord_eq (h .status)
  exact ⟨h .arg0, h .arg1, h .res0, h .res1, hcode, hcrcOk, hsticky, htag, hcalc,
    acc_eq_of_crcaccWord_eq (h .crcacc)⟩

/-- Settles O43: the reset state is a literal, and each register is read from its fields. -/
theorem resetLeavesEveryFieldZero : Obligations.ResetLeavesEveryFieldZero :=
  ⟨rfl, rfl, rfl, rfl, rfl, rfl, rfl, rfl, rfl, rfl, fun r => by cases r <;> rfl⟩

/-! ### The range of a conversion (R135) -/

theorem maskRaw_le (w : RawWord) : (maskRaw w).toNat ≤ 65532 := by
  rw [maskRaw, BitVec.toNat_and]
  exact Nat.and_le_right

/-- 6,553,600 times a temperature between the ends R135 gives, which hold the humidities too. -/
def InConversionRange (fx : Int) : Prop := -307036160 ≤ fx ∧ fx ≤ 844492144

theorem tempFx_inRange (w : RawWord) : InConversionRange (tempFx w) := by
  have := maskRaw_le w
  unfold InConversionRange tempFx
  omega

theorem humidityFx_inRange (w : RawWord) : InConversionRange (humidityFx w) := by
  have := maskRaw_le w
  unfold InConversionRange humidityFx
  omega

/-- No conversion wraps: `RES1` holds it as a signed number (R132). -/
theorem toInt_toU32 {fx : Int} (h : InConversionRange fx) : (toU32 fx).toInt = fx := by
  obtain ⟨hlo, hhi⟩ := h
  exact BitVec.toInt_ofInt_eq_self (by decide) (by norm_num; omega) (by norm_num; omega)

/-! ### What a command can do -/

/-- `COMP_RH` on an operand that is not finite (R161). -/
theorem execCompRh_nonfinite {s : State}
    (hs : ¬ ∃ t h, f32val s.arg0 = .finite t ∧ f32val s.arg1 = .finite h) :
    execCompRh s = .next (domainError s) := by
  unfold execCompRh
  split
  · exact absurd ⟨_, _, ‹_›, ‹_›⟩ hs
  · rfl

/-- `DEWPT` on an operand that is not finite (R173). -/
theorem execDewpt_nonfinite {s : State}
    (hs : ¬ ∃ t h, f32val s.arg0 = .finite t ∧ f32val s.arg1 = .finite h) :
    execDewpt s = .next (domainError s) := by
  unfold execDewpt
  split
  · exact absurd ⟨_, _, ‹_›, ‹_›⟩ hs
  · rfl

/-- `CommandEffect i f`: `f` is one of the changes the command `i` can make to the state.  The
values written are parameters; `exec_effect` says from which fields a command takes them. -/
inductive CommandEffect : Instr → (State → State) → Prop where
  | nop : CommandEffect .nop (fun s => s)
  | statClr : CommandEffect .statClr (fun s => report codeOk { s with sticky := false })
  | crcClr : CommandEffect .crcClr (fun s => report codeOk { s with acc := 0 })
  | crcByte (b : Byte) :
      CommandEffect .crcByte (fun s => report codeOk { s with acc := b, calcCrc := b })
  | check {i : Instr} (hi : i = .crcCmp ∨ i = .crcChk1 ∨ i = .crcChk2) (computed expected : Byte) :
      CommandEffect i (compareCrc computed expected)
  | convert {i : Instr} (hi : i = .convT ∨ i = .convRh) {fx : Int} (hfx : InConversionRange fx)
      (w : RawWord) : CommandEffect i (fun s => report codeOk (writeConversion fx w s))
  | measure {i : Instr} (hi : i = .measT ∨ i = .measRh) {fx : Int} (hfx : InConversionRange fx)
      (w : RawWord) (crc : Byte) :
      CommandEffect i (fun s => compareCrc crc crc (writeConversion fx w s))
  | measureFails {i : Instr} (hi : i = .measT ∨ i = .measRh) {computed expected : Byte}
      (hne : computed ≠ expected) : CommandEffect i (compareCrc computed expected)
  | result {i : Instr} (hi : i = .compRh ∨ i = .dewpt) (r : Word) :
      CommandEffect i (fun s => report codeOk { s with res0 := r })
  | domain {i : Instr} (hi : i = .compRh ∨ i = .dewpt) : CommandEffect i domainError

/-- The fields a command may read are the same in both states: the operand registers and the
accumulator (R35), and which dew-point unit the block has (log entry 20). -/
def SameInputs (s u : State) : Prop :=
  u.arg0 = s.arg0 ∧ u.arg1 = s.arg1 ∧ u.acc = s.acc ∧ u.dewUnit = s.dewUnit

/-- The effect of a measurement: its response's CRC decides (R142, R143). -/
theorem checkThenConvert_effect {i : Instr} (hi : i = .measT ∨ i = .measRh) {fx : RawWord → Int}
    (hfx : ∀ w, InConversionRange (fx w)) (s : State) :
    ∃ f, CommandEffect i f ∧ ∀ u, SameInputs s u →
      (.next (checkThenConvert fx u) : Host.Outcome State Fault Refusal) = .next (f u) := by
  by_cases hcrc : crc8 [argD1 s.arg0, argD0 s.arg0] = argLowByte s.arg0
  · refine ⟨_, .measure hi (hfx (argResponseRaw s.arg0)) (argResponseRaw s.arg0)
      (argLowByte s.arg0), fun u ⟨h0, _, _, _⟩ => ?_⟩
    rw [checkThenConvert_match fx u (by rwa [h0]), h0]
  · refine ⟨_, .measureFails hi hcrc, fun u ⟨h0, _, _, _⟩ => ?_⟩
    rw [checkThenConvert_mismatch fx u (by rwa [h0]), h0]

/-- The effect of `COMP_RH`: whether both operands are finite decides (R161). -/
theorem execCompRh_effect (s : State) :
    ∃ f, CommandEffect .compRh f ∧ ∀ u, SameInputs s u → execCompRh u = .next (f u) := by
  by_cases hfin : ∃ t h, f32val s.arg0 = .finite t ∧ f32val s.arg1 = .finite h
  · obtain ⟨t, h, ht, hh⟩ := hfin
    exact ⟨_, .result (by simp) (rne32 (compFrac t h)), fun u ⟨h0, h1, _, _⟩ =>
      execCompRh_finite (by rwa [h0]) (by rwa [h1])⟩
  · exact ⟨_, .domain (by simp), fun u ⟨h0, h1, _, _⟩ => execCompRh_nonfinite (by rwa [h0, h1])⟩

/-- The effect of `DEWPT`: whether the dew point is defined on the operands decides (R173). -/
theorem execDewpt_effect (s : State) :
    ∃ f, CommandEffect .dewpt f ∧ ∀ u, SameInputs s u → execDewpt u = .next (f u) := by
  by_cases hfin : ∃ t h, f32val s.arg0 = .finite t ∧ f32val s.arg1 = .finite h
  · obtain ⟨t, h, ht, hh⟩ := hfin
    have hexec : ∀ u, SameInputs s u → execDewpt u =
        if dewUndefined s.arg0 s.arg1 t h then .next (domainError u)
        else .next (report codeOk { u with res0 := Config.dpImpl s.dewUnit s.arg0 s.arg1 }) := by
      rintro u ⟨h0, h1, _, hunit⟩
      rw [execDewpt_finite (by rwa [h0]) (by rwa [h1]), h0, h1, hunit]
    by_cases hdew : dewUndefined s.arg0 s.arg1 t h = true
    · exact ⟨_, .domain (by simp), fun u hu => by rw [hexec u hu, if_pos hdew]⟩
    · exact ⟨_, .result (by simp) _, fun u hu => by rw [hexec u hu, if_neg hdew]⟩
  · exact ⟨_, .domain (by simp), fun u ⟨h0, h1, _, _⟩ => execDewpt_nonfinite (by rwa [h0, h1])⟩

/-- Every command completes with one of its effects, and which one, values included, depends on the
fields of `SameInputs` alone (R35). -/
theorem exec_effect (i : Instr) (s : State) :
    ∃ f, CommandEffect i f ∧ ∀ u, SameInputs s u → exec i u = .next (f u) := by
  cases i with
  | nop => exact ⟨_, .nop, fun _ _ => rfl⟩
  | statClr => exact ⟨_, .statClr, fun _ _ => rfl⟩
  | crcClr => exact ⟨_, .crcClr, fun _ _ => rfl⟩
  | crcByte =>
    exact ⟨_, .crcByte (crc8Step s.acc (argLowByte s.arg0)), fun u ⟨h0, _, hacc, _⟩ => by
      rw [← h0, ← hacc]; rfl⟩
  | crcCmp =>
    exact ⟨_, .check (by simp) s.acc (argLowByte s.arg0), fun u ⟨h0, _, hacc, _⟩ => by
      rw [← h0, ← hacc]; rfl⟩
  | crcChk1 =>
    exact ⟨_, .check (by simp) (crc8 [argD0 s.arg0]) (argLowByte s.arg0),
      fun u ⟨h0, _, _, _⟩ => by rw [← h0]; rfl⟩
  | crcChk2 =>
    exact ⟨_, .check (by simp) (crc8 [argD1 s.arg0, argD0 s.arg0]) (argLowByte s.arg0),
      fun u ⟨h0, _, _, _⟩ => by rw [← h0]; rfl⟩
  | convT =>
    exact ⟨_, .convert (by simp) (tempFx_inRange (argRaw s.arg0)) (argRaw s.arg0),
      fun u ⟨h0, _, _, _⟩ => by rw [← h0]; rfl⟩
  | convRh =>
    exact ⟨_, .convert (by simp) (humidityFx_inRange (argRaw s.arg0)) (argRaw s.arg0),
      fun u ⟨h0, _, _, _⟩ => by rw [← h0]; rfl⟩
  | measT => exact checkThenConvert_effect (.inl rfl) tempFx_inRange s
  | measRh => exact checkThenConvert_effect (.inr rfl) humidityFx_inRange s
  | compRh => exact execCompRh_effect s
  | dewpt => exact execDewpt_effect s

/-- A command's next state is an effect of that command. -/
theorem exec_next {i : Instr} {s t : State} (h : exec i s = .next t) :
    ∃ f, CommandEffect i f ∧ t = f s := by
  obtain ⟨f, hf, hexec⟩ := exec_effect i s
  rw [hexec s ⟨rfl, rfl, rfl, rfl⟩] at h
  cases h
  exact ⟨f, hf, rfl⟩

namespace CommandEffect

/-! ### The write matrix, column by column (R38)

Each column is a split over the effects: the commands of every effect that writes the field are
among those the hypothesis excludes, and the other effects keep it. -/

variable {i : Instr} {f : State → State}

/-- Operand registers and the host's side have no writer among the commands (R21). -/
theorem operands_eq (h : CommandEffect i f) (s : State) :
    (f s).arg0 = s.arg0 ∧ (f s).arg1 = s.arg1 ∧ SameHost (f s) s := by
  cases h <;> simp [SameHost, compareCrc, domainError]

theorem res0_eq (h : CommandEffect i f)
    (hi : i ∉ [.convT, .convRh, .measT, .measRh, .compRh, .dewpt]) (s : State) :
    (f s).res0 = s.res0 := by
  cases h <;> simp_all [compareCrc]

theorem res1_tag_eq (h : CommandEffect i f) (hi : i ∉ [.convT, .convRh, .measT, .measRh])
    (s : State) : (f s).res1 = s.res1 ∧ (f s).tag = s.tag := by
  cases h <;> simp_all [compareCrc, domainError]

theorem crcOk_eq (h : CommandEffect i f) (hi : i ∉ [.crcCmp, .crcChk1, .crcChk2, .measT, .measRh])
    (s : State) : (f s).crcOk = s.crcOk := by
  cases h <;> simp_all [domainError]

theorem calcCrc_eq (h : CommandEffect i f)
    (hi : i ∉ [.crcByte, .crcCmp, .crcChk1, .crcChk2, .measT, .measRh]) (s : State) :
    (f s).calcCrc = s.calcCrc := by
  cases h <;> simp_all [domainError]

theorem acc_eq (h : CommandEffect i f) (hi : i ∉ [.crcClr, .crcByte]) (s : State) :
    (f s).acc = s.acc := by
  cases h <;> simp_all [compareCrc, domainError]

theorem code_eq_of_nop (h : CommandEffect .nop f) (s : State) : (f s).code = s.code := by
  cases h <;> simp_all

/-- The commands that report OK only and clear nothing keep `STICKY` (R28). -/
theorem sticky_eq (h : CommandEffect i f)
    (hi : i ∉ [.crcCmp, .crcChk1, .crcChk2, .measT, .measRh, .compRh, .dewpt, .statClr])
    (s : State) : (f s).sticky = s.sticky := by
  cases h <;> simp_all

/-- Only an error or `STAT_CLR` writes `STICKY` (R28). -/
theorem sticky_eq_of_ok (h : CommandEffect i f) (hi : i ≠ .statClr) (s : State)
    (hok : (f s).code = 0) : (f s).sticky = s.sticky := by
  cases h <;> simp_all [compareCrc, domainError, stickyAfter, codeOk, codeDomain]

/-- A measurement that reports an error has not converted (R142, R143). -/
theorem results_eq_of_error (h : CommandEffect i f) (hi : i ∈ [.measT, .measRh]) (s : State)
    (herr : (f s).code ≠ 0) :
    (f s).res0 = s.res0 ∧ (f s).res1 = s.res1 ∧ (f s).tag = s.tag := by
  obtain rfl | rfl : i = .measT ∨ i = .measRh := by simpa using hi
  all_goals cases h <;> simp_all [compareCrc, crcCodeOf, codeOk]

end CommandEffect

/-- Settles O45: what a command can do is one of its effects, and each column of the matrix is a
lemma about the effects. -/
theorem commandsWriteOnlyTheirFields : Obligations.CommandsWriteOnlyTheirFields := by
  intro i s t hexec
  obtain ⟨f, h, rfl⟩ := exec_next hexec
  obtain ⟨harg0, harg1, hhost⟩ := h.operands_eq s
  exact ⟨harg0, harg1, hhost, (h.res0_eq · s), (h.res1_tag_eq · s), (h.crcOk_eq · s),
    (h.calcCrc_eq · s), (h.acc_eq · s), fun hi => (hi ▸ h).code_eq_of_nop s, (h.sticky_eq · s),
    (h.sticky_eq_of_ok · s), (h.results_eq_of_error · s)⟩

/-! ### Flags are written, never read (R35) -/

/-- The state with other values of the four flags. -/
def withFlags (c : BitVec 3) (ok sticky : Bool) (tag : BitVec 2) (s : State) : State :=
  { s with code := c, crcOk := ok, sticky := sticky, tag := tag }

/-- A report of OK writes `CODE` alone (R201). -/
theorem report_ok (s : State) : report codeOk s = { s with code := 0 } := by
  rw [report, stickyAfter_ok]
  rfl

theorem domainError_eq (s : State) :
    domainError s = { s with res0 := qnan, code := 3, sticky := true } := by
  rw [domainError, report, stickyAfter_error (by decide)]
  rfl

/-- An effect writes each flag it writes whatever the flags were, and keeps the others. -/
theorem CommandEffect.withFlags_eq {i : Instr} {f : State → State} (h : CommandEffect i f)
    (s : State) (c : BitVec 3) (ok sticky : Bool) (tag : BitVec 2) :
    f (withFlags c ok sticky tag s) = { f s with
      code := if i = .nop then c else (f s).code
      crcOk := if i ∈ [.crcCmp, .crcChk1, .crcChk2, .measT, .measRh] then (f s).crcOk else ok
      tag := if i ∈ [.convT, .convRh] ∨ (i ∈ [.measT, .measRh] ∧ (f s).crcOk = true) then (f s).tag
        else tag
      sticky := if i = .statClr then false else if i ≠ .nop ∧ (f s).code ≠ 0 then true
        else sticky } := by
  cases h with
  | nop => simp [withFlags]
  | statClr => simp [withFlags, report_ok]
  | crcClr => simp [withFlags, report_ok]
  | crcByte b => simp [withFlags, report_ok]
  | check hi computed expected =>
    by_cases hc : computed = expected
    · subst hc
      obtain rfl | rfl | rfl := hi <;> simp [withFlags, compareCrc_match]
    · obtain rfl | rfl | rfl := hi <;> simp [withFlags, compareCrc_mismatch hc]
  | convert hi hfx w => obtain rfl | rfl := hi <;> simp [withFlags, report_ok, writeConversion]
  | measure hi hfx w crc =>
    obtain rfl | rfl := hi <;> simp [withFlags, compareCrc_match, writeConversion]
  | measureFails hi hne =>
    obtain rfl | rfl := hi <;> simp [withFlags, compareCrc_mismatch hne]
  | result hi r => obtain rfl | rfl := hi <;> simp [withFlags, report_ok]
  | domain hi => obtain rfl | rfl := hi <;> simp [withFlags, domainError_eq]

/-- Settles O56: the flags are not among the inputs from which a command takes its effect, and an
effect writes each flag without reading it. -/
theorem flagsAreNeverInputs : Obligations.FlagsAreNeverInputs := by
  intro i s c ok sticky tag
  obtain ⟨f, h, hexec⟩ := exec_effect i s
  refine ⟨f s, hexec s ⟨rfl, rfl, rfl, rfl⟩, ?_⟩
  rw [← h.withFlags_eq s c ok sticky tag]
  exact hexec _ ⟨rfl, rfl, rfl, rfl⟩

/-! ### The invariant (R26, R28, R135) -/

/-- The invariant speaks of `CODE`, `STICKY` and `RES1` only. -/
theorem BlockInvariant.congr {s t : State} (h : BlockInvariant s) (hcode : t.code = s.code)
    (hsticky : t.sticky = s.sticky) (hres1 : t.res1 = s.res1) : BlockInvariant t := by
  unfold BlockInvariant
  rwa [hcode, hsticky, hres1]

/-- A report of any of the four codes leaves the invariant if `RES1` is in range (R201). -/
theorem blockInvariant_report {c : BitVec 3} (hc : c.toNat ≤ 3) {s : State}
    (hres1 : InConversionRange s.res1.toInt) : BlockInvariant (report c s) :=
  ⟨hc, fun hne => stickyAfter_error hne _, hres1⟩

theorem blockInvariant_resetBlock (s : State) : BlockInvariant (resetBlock s) := by
  simp [BlockInvariant, codeOk]

theorem crcCodeOf_le (c e : Byte) : (crcCodeOf c e).toNat ≤ 3 := by
  unfold crcCodeOf
  split <;> decide

theorem blockInvariant_compareCrc (c e : Byte) {s : State}
    (hres1 : InConversionRange s.res1.toInt) : BlockInvariant (compareCrc c e s) :=
  blockInvariant_report (crcCodeOf_le c e) hres1

theorem writeConversion_inRange {fx : Int} (hfx : InConversionRange fx) (w : RawWord) (s : State) :
    InConversionRange (writeConversion fx w s).res1.toInt := by
  rwa [writeConversion_res1, toInt_toU32 hfx]

/-- Every effect but that of `NOP` ends in a report, with `RES1` as it was or just converted. -/
theorem CommandEffect.keeps_invariant {i : Instr} {f : State → State} (h : CommandEffect i f)
    {s : State} (hs : BlockInvariant s) : BlockInvariant (f s) := by
  have ⟨_, _, hres1⟩ := hs
  have hok : codeOk.toNat ≤ 3 := by decide
  cases h with
  | nop => exact hs
  | statClr => exact blockInvariant_report hok hres1
  | crcClr => exact blockInvariant_report hok hres1
  | crcByte b => exact blockInvariant_report hok hres1
  | check hi c e => exact blockInvariant_compareCrc c e hres1
  | convert hi hfx w => exact blockInvariant_report hok (writeConversion_inRange hfx w s)
  | measure hi hfx w crc =>
    exact blockInvariant_compareCrc crc crc (writeConversion_inRange hfx w s)
  | measureFails hi hne => exact blockInvariant_compareCrc _ _ hres1
  | result hi r => exact blockInvariant_report hok hres1
  | domain hi => exact blockInvariant_report (by decide) hres1

/-- A command word keeps the invariant, an illegal one too (R80, R203). -/
theorem execute_keeps_invariant {v : Word} {s t : State} (hs : BlockInvariant s)
    (h : execute v s = .next t) : BlockInvariant t := by
  unfold execute at h
  split at h
  · obtain ⟨f, hf, rfl⟩ := exec_next h
    exact hf.keeps_invariant hs
  · cases h
    obtain ⟨-, -, hres1⟩ := hs
    exact blockInvariant_report (by decide) hres1

theorem writeReg_keeps_invariant {r : HostReg} {v : Word} {s t : State} (hs : BlockInvariant s)
    (h : writeReg r v s = .next t) : BlockInvariant t := by
  obtain ⟨-, hexec⟩ | ⟨-, rfl⟩ | ⟨-, rfl⟩ | ⟨-, rfl⟩ := writeReg_next h
  · exact execute_keeps_invariant hs hexec
  · exact hs.congr rfl rfl rfl
  · exact hs.congr rfl rfl rfl
  · exact hs

theorem releaseReset_keeps_invariant {s : State} (hs : BlockInvariant s) :
    BlockInvariant (releaseReset s) := by
  unfold releaseReset
  split
  · exact (blockInvariant_resetBlock s).congr rfl rfl rfl
  · exact hs

theorem performEvent_keeps_invariant {e : HostEvent} {s t : State} (hs : BlockInvariant s)
    (h : performEvent e s = .next t) : BlockInvariant t := by
  obtain ⟨r, x, -, -, rfl⟩ | ⟨r, src, v, -, -, -, hwrite⟩ | ⟨rfl, -⟩ | ⟨-, rfl⟩ | ⟨-, rfl⟩ :=
    performEvent_next h
  · exact hs.congr rfl rfl rfl
  · exact writeReg_keeps_invariant hs hwrite
  · exact (blockInvariant_resetBlock s).congr rfl rfl rfl
  · exact releaseReset_keeps_invariant hs
  · exact blockInvariant_resetBlock s

/-- Settles O41: a step is no change or one event, and each event, commands included, leaves the
three fields as they were, at their reset values, or after a report. -/
theorem stepKeepsTheInvariant : Obligations.StepKeepsTheInvariant := by
  intro s t hs hstep
  obtain ⟨-, rfl⟩ | ⟨e, rest, -, hevent⟩ := step_next hstep
  · exact hs
  · have hrest : BlockInvariant { s with pending := rest } := hs.congr rfl rfl rfl
    exact performEvent_keeps_invariant hrest hevent

/-- Settles O42: the reset state is what reset leaves of any block. -/
theorem resetMeetsTheInvariant : Obligations.ResetMeetsTheInvariant :=
  blockInvariant_resetBlock State.reset

end Sys2Proof.Machine
end

section
/-! PROOFS. The register window (R50 to R89): which accesses a step performs and which it stops, what
a read returns and a write stores, the operand formats the assembly packs, and that a well-formed
program of the host runs to its end. -/

namespace Sys2Proof.Machine

/-! ### The places of the window (R50 to R53) -/

theorem regOffset_mod_four (r : HostReg) : regOffset r % 4 = 0 := by cases r <;> decide

/-- A register begins at every multiple of 4 inside the window, and nowhere else (R51, R52). -/
theorem exists_regOffset_iff {s : State} {addr : Nat} :
    (∃ r, addr = s.baseAddr + regOffset r) ↔
      s.baseAddr ≤ addr ∧ addr < s.baseAddr + 32 ∧ addr % 4 = 0 := by
  have hbase : s.baseAddr % 4 = 0 := by unfold State.baseAddr; omega
  constructor
  · rintro ⟨r, rfl⟩
    have hlt := regOffset_lt r
    have halign := regOffset_mod_four r
    omega
  · rintro ⟨hlo, hhi, halign⟩
    have hplaces : ∀ off < 32, off % 4 = 0 → (regAtOffset off).isSome := by decide
    obtain ⟨r, hr⟩ := Option.isSome_iff_exists.1
      (hplaces (addr - s.baseAddr) (by omega) (by omega))
    have hoff := regAtOffset_eq_some.1 hr
    exact ⟨r, by omega⟩

theorem selectReg_outsideWindow {base addr : Nat} (h : addr < base ∨ base + 32 ≤ addr) :
    selectReg base .w32 addr = .error .outsideWindow := by
  have hout : ¬ inWindow base addr = true := by
    simp only [inWindow, Bool.and_eq_true, decide_eq_true_eq]
    omega
  simp [selectReg, hout]

/-- Inside the window, where no register begins, the alignment is what is wrong (R53). -/
theorem selectReg_misaligned {s : State} {addr : Nat} (hlo : s.baseAddr ≤ addr)
    (hhi : addr < s.baseAddr + 32) (halign : addr % 4 ≠ 0) :
    selectReg s.baseAddr .w32 addr = .error .misalignedAccess := by
  have hin : inWindow s.baseAddr addr = true := by simp [inWindow, hlo, hhi]
  have hnone : regAtOffset (addr - s.baseAddr) = none := by
    refine Option.eq_none_iff_forall_ne_some.2 fun r hr => halign ?_
    have hoff := regAtOffset_eq_some.1 hr
    have hplace : ∃ r, addr = s.baseAddr + regOffset r := ⟨r, by omega⟩
    obtain ⟨-, -, haligned⟩ := exists_regOffset_iff.1 hplace
    exact haligned
  simp [selectReg, hin, hnone]

theorem step_of_pending {s : State} {e : HostEvent} {rest : List HostEvent}
    (hp : s.pending = e :: rest) : step s = performEvent e { s with pending := rest } := by
  simp [step, hp]

theorem performRead_unadmitted {s : State} {width : AccessWidth} {addr : Nat} {f : Fault}
    (hsel : selectReg s.baseAddr width addr = .error f) (x : HostVar) :
    performRead width addr x s = .fault f := by
  simp [performRead, hsel]

theorem performWrite_unadmitted {s : State} {width : AccessWidth} {addr : Nat} {f : Fault}
    (hsel : selectReg s.baseAddr width addr = .error f) (src : Source) :
    performWrite width addr src s = .fault f := by
  simp [performWrite, hsel]

/-- An access that is not admitted stops the step with the reason, whichever kind it is (R53). -/
theorem step_unadmitted {s : State} {rest : List HostEvent} {width : AccessWidth} {addr : Nat}
    {e : HostEvent} {f : Fault} (hr : s.inReset = false) (hp : s.pending = e :: rest)
    (he : (∃ x, e = .read width addr x) ∨ ∃ src, e = .write width addr src)
    (hsel : selectReg s.baseAddr width addr = .error f) : step s = .fault f := by
  have hout : ¬ s.inReset = true := by simp [hr]
  rw [step_of_pending hp]
  obtain ⟨x, rfl⟩ | ⟨src, rfl⟩ := he
  · exact (if_neg hout).trans (performRead_unadmitted (s := { s with pending := rest }) hsel x)
  · exact (if_neg hout).trans (performWrite_unadmitted (s := { s with pending := rest }) hsel src)

/-- Settles O49: a step stops with the reason `selectReg` gives for the access. -/
theorem unadmittedAccessHasNoStep : Obligations.UnadmittedAccessHasNoStep := by
  intro s rest width addr e hr hp he
  refine ⟨?_, ?_, ?_, ?_⟩
  · rintro (rfl | rfl)
    · exact step_unadmitted hr hp he rfl
    · exact step_unadmitted hr hp he rfl
  · rintro rfl
    exact step_unadmitted hr hp he rfl
  · rintro rfl hlo hhi halign
    exact step_unadmitted hr hp he (selectReg_misaligned hlo hhi halign)
  · rintro rfl hout
    exact step_unadmitted hr hp he (selectReg_outsideWindow hout)

/-! ### Commands and writes complete (R60, R208) -/

theorem execute_of_decode_ok {v : Word} {i : Instr} (h : decode v = .ok i) (s : State) :
    execute v s = exec i s := by
  simp [execute, h]

theorem execute_of_decode_error {v : Word} {e : DecodeError} (h : decode v = .error e)
    (s : State) : execute v s = .next { s with code := 2, sticky := true } := by
  simp [execute, h, illegalWord, report, codeIllegal, stickyAfter, codeOk]

/-- Every command word, an illegal one too, has a next state with the host's side as it was. -/
theorem execute_completes (v : Word) (s : State) : ∃ t, execute v s = .next t ∧ SameHost t s := by
  cases hv : decode v with
  | ok i =>
    obtain ⟨f, hf, hexec⟩ := exec_effect i s
    obtain ⟨-, -, hhost⟩ := hf.operands_eq s
    exact ⟨f s, (execute_of_decode_ok hv s).trans (hexec s ⟨rfl, rfl, rfl, rfl⟩), hhost⟩
  | error e => exact ⟨_, execute_of_decode_error hv s, rfl, rfl, rfl, rfl, rfl⟩

theorem writeReg_completes (r : HostReg) (v : Word) (s : State) :
    ∃ t, writeReg r v s = .next t ∧ SameHost t s := by
  cases r with
  | cmd => exact execute_completes v s
  | arg0 | arg1 | res0 | res1 | status | crcacc | reserved =>
    exact ⟨_, rfl, rfl, rfl, rfl, rfl, rfl⟩

/-- A write whose data the host has takes a step, which takes the event off and leaves the rest of
the host's side. -/
theorem step_write_completes {s : State} {rest : List HostEvent} {r : HostReg} {src : Source}
    {v : Word} (hr : s.inReset = false)
    (hp : s.pending = .write .w32 (s.baseAddr + regOffset r) src :: rest)
    (hv : sourceValue src s = some v) :
    ∃ t, step s = .next t ∧ SameHost t { s with pending := rest } := by
  rw [step_write hr hp hv]
  exact writeReg_completes r v _

/-- Settles O48: an aligned address is a register's, a read of it is a step by `step_read`, and a
write is one because every command word and every store completes. -/
theorem everyAdmittedAccessIsPerformed : Obligations.EveryAdmittedAccessIsPerformed := by
  intro s rest addr hr hlo hhi halign
  obtain ⟨r, rfl⟩ := exists_regOffset_iff.2 ⟨hlo, hhi, halign⟩
  constructor
  · intro x hp
    exact ⟨_, step_read hr hp, rfl, rfl, rfl, rfl, rfl, rfl, rfl, rfl, rfl, rfl, rfl⟩
  · intro src v hp hv
    obtain ⟨t, hstep, -, -, hreset, hpending, hreads⟩ := step_write_completes hr hp hv
    exact ⟨t, hstep, hpending, hreads, hreset.trans hr⟩

/-! ### What a read returns and a write stores (R55 to R58, R63) -/

/-- Settles O50: each offset is a register's, and `readReg` is the register map. -/
theorem hostReadReturnsTheRegister : Obligations.HostReadReturnsTheRegister := by
  intro s rest off x v hr hp hmap
  obtain ⟨rfl, rfl⟩ | ⟨rfl, rfl⟩ | ⟨rfl, rfl⟩ | ⟨rfl, rfl⟩ | ⟨rfl, rfl⟩ | ⟨rfl, rfl⟩ |
    ⟨rfl, rfl⟩ | ⟨rfl, rfl⟩ := hmap
  · exact step_read (r := .cmd) hr hp
  · exact step_read (r := .arg0) hr hp
  · exact step_read (r := .arg1) hr hp
  · exact step_read (r := .res0) hr hp
  · exact step_read (r := .res1) hr hp
  · exact step_read (r := .status) hr hp
  · exact step_read (r := .crcacc) hr hp
  · exact step_read (r := .reserved) hr hp

/-- Settles O52: each offset is a register's, and `writeReg` says what a write to it does. -/
theorem hostWriteStoresOrIsIgnored : Obligations.HostWriteStoresOrIsIgnored := by
  intro s rest off src v hr hp hv
  refine ⟨?_, ?_, ?_, ?_⟩
  · rintro rfl
    exact step_write (r := .cmd) hr hp hv
  · rintro rfl
    exact step_write (r := .arg0) hr hp hv
  · rintro rfl
    exact step_write (r := .arg1) hr hp hv
  · intro hoff
    obtain rfl | rfl | rfl | rfl | rfl :
        off = 0x0C ∨ off = 0x10 ∨ off = 0x14 ∨ off = 0x18 ∨ off = 0x1C := by simpa using hoff
    · exact step_write (r := .res0) hr hp hv
    · exact step_write (r := .res1) hr hp hv
    · exact step_write (r := .status) hr hp hv
    · exact step_write (r := .crcacc) hr hp hv
    · exact step_write (r := .reserved) hr hp hv

/-- Settles O1: the event is a write to `CMD`, so the step executes its word, which the decoder
makes a command or an illegal word. -/
theorem stepRunsTheCommandWord : Obligations.StepRunsTheCommandWord := by
  intro s rest src v hr hp hv
  have hstep : step s = execute v { s with pending := rest } :=
    step_write (r := .cmd) hr hp hv
  exact ⟨fun i hi => hstep.trans (execute_of_decode_ok hi _),
    fun e he => hstep.trans (execute_of_decode_error he _)⟩

/-- The write of the word stored leaves the same state again (R63). -/
theorem writeReg_idempotent {r : HostReg} (hr : r ≠ .cmd) (v : Word) (s : State) :
    ∃ t, writeReg r v s = .next t ∧ writeReg r v t = .next t := by
  cases r with
  | cmd => exact absurd rfl hr
  | arg0 | arg1 | res0 | res1 | status | crcacc | reserved => exact ⟨_, rfl, rfl⟩

theorem writeReg_cmd_crcByte (s : State) :
    ∃ t, writeReg .cmd (encode .crcByte) s = .next t ∧ t.arg0 = s.arg0 ∧
      t.acc = crc8Step s.acc (argLowByte s.arg0) :=
  ⟨_, execute_of_decode_ok (v := encode .crcByte) (i := .crcByte) rfl s, rfl, rfl⟩

/-- Settles O53: a store is idempotent, and `CRC_BYTE` on the byte 1 takes `ACC` from 0 to 0x31 and
on to another value. -/
theorem onlyCmdWritesAreNotIdempotent : Obligations.OnlyCmdWritesAreNotIdempotent := by
  refine ⟨fun _ v s hr => writeReg_idempotent hr v s, ?_⟩
  obtain ⟨t, hrun, harg, hacc⟩ := writeReg_cmd_crcByte { State.reset with arg0 := 1 }
  obtain ⟨u, hrerun, -, hacc'⟩ := writeReg_cmd_crcByte t
  refine ⟨_, t, u, hrun, hrerun, ?_⟩
  have hfirst : crc8Step 0 (argLowByte 1) = 0x31 := by decide
  have hsecond : crc8Step 0x31 (argLowByte 1) ≠ 0x31 := by decide
  have ht : t.acc = 0x31 := hacc.trans hfirst
  rwa [hacc', harg, ht]

/-! ### Operand formats (R61, R84) -/

/-- The lowest byte of a word is the last one appended. -/
theorem argLowByte_append (x : BitVec 24) (b : Byte) : argLowByte (x ++ b) = b :=
  BitVec.extractLsb'_append_eq_right

theorem argD0_append (x : BitVec 16) (d0 ck : Byte) : argD0 (x ++ d0 ++ ck) = d0 := by
  rw [argD0, BitVec.extractLsb'_append_eq_of_le (by decide)]
  exact BitVec.extractLsb'_append_eq_right

theorem argD1_packB3 (d1 d0 ck : Byte) : argD1 (packB3 d1 d0 ck) = d1 := by
  rw [argD1, packB3]
  iterate 2 rw [BitVec.extractLsb'_append_eq_of_le (by decide)]
  exact BitVec.extractLsb'_append_eq_right

theorem argResponseRaw_packB3 (d1 d0 ck : Byte) :
    argResponseRaw (packB3 d1 d0 ck) = d1 ++ d0 := by
  rw [argResponseRaw, packB3, BitVec.extractLsb'_append_eq_of_le (by decide), BitVec.append_assoc]
  exact BitVec.extractLsb'_append_eq_right

theorem packB3_unused (d1 d0 ck : Byte) : (packB3 d1 d0 ck).extractLsb' 24 8 = 0 := by
  rw [packB3]
  iterate 3 rw [BitVec.extractLsb'_append_eq_of_le (by decide)]
  rfl

theorem argRaw_packW16 (w : RawWord) : argRaw (packW16 w) = w := BitVec.extractLsb'_append_eq_right

/-- Settles O58: a packing is one concatenation, and each field is the piece at its place. -/
theorem packedOperandsAreReadBack : Obligations.PackedOperandsAreReadBack :=
  ⟨fun d1 d0 ck => ⟨argD1_packB3 d1 d0 ck, argD0_append _ d0 ck, argLowByte_append _ ck,
      argResponseRaw_packB3 d1 d0 ck, packB3_unused d1 d0 ck⟩,
    fun d0 ck => ⟨argD0_append _ d0 ck, argLowByte_append _ ck⟩,
    argLowByte_append _, argRaw_packW16⟩

/-! ### Programs of the host (R66, R88) -/

/-- A host variable that has been read has a value. -/
theorem exists_lookupVar {x : HostVar} {reads : List (HostVar × Word)}
    (h : x ∈ reads.map Prod.fst) : ∃ v, lookupVar x reads = some v := by
  induction reads with
  | nil => simp at h
  | cons read reads ih =>
    obtain ⟨y, v⟩ := read
    rw [lookupVar_cons]
    by_cases hy : y = x
    · exact ⟨v, if_pos hy⟩
    · rw [if_neg hy]
      exact ih (List.mem_of_ne_of_mem (Ne.symm hy) h)

theorem exists_sourceValue {src : Source} {s : State}
    (h : sourceWf (s.reads.map Prod.fst) src = true) : ∃ v, sourceValue src s = some v := by
  cases src with
  | lit v => exact ⟨v, rfl⟩
  | var x => exact exists_lookupVar (List.contains_iff_mem.1 h)

/-- One well-formed statement is one step, after which the host knows the variables it should. -/
theorem step_stmt {s : State} {st : Stmt} {rest : List HostEvent} (hr : s.inReset = false)
    (hp : s.pending = st.toEvent s.baseAddr :: rest)
    (hwf : stmtWf (s.reads.map Prod.fst) st = true) :
    ∃ t, step s = .next t ∧ t.inReset = false ∧ t.basePage = s.basePage ∧ t.pending = rest ∧
      t.reads.map Prod.fst = knownAfter (s.reads.map Prod.fst) st := by
  cases st with
  | wr r src =>
    obtain ⟨-, hsrc⟩ := Bool.and_eq_true_iff.1 hwf
    obtain ⟨v, hv⟩ := exists_sourceValue hsrc
    obtain ⟨t, hstep, hpage, -, hreset, hpending, hreads⟩ := step_write_completes hr hp hv
    exact ⟨t, hstep, hreset.trans hr, hpage, hpending, congrArg _ hreads⟩
  | rd x r => exact ⟨_, step_read hr hp, hr, rfl, rfl, rfl⟩
  | cmd i =>
    obtain ⟨t, hstep, hpage, -, hreset, hpending, hreads⟩ :=
      step_write_completes (v := encode i) hr hp rfl
    exact ⟨t, hstep, hreset.trans hr, hpage, hpending, congrArg _ hreads⟩

theorem run_succ_of_step {M : Host.Core} {s t : M.State} (h : M.step s = .next t) (k : Nat) :
    M.run (k + 1) s = M.run k t := by
  rw [Host.Core.run, h]

/-- Settles O57, by induction on the program: the first statement is a step, and what it leaves is
a state outside reset about to issue the others, well formed with the variables then known. -/
theorem wellFormedProgramsRunToTheEnd : Obligations.WellFormedProgramsRunToTheEnd := by
  intro program
  induction program with
  | nil => exact fun s hr hp _ => ⟨s, rfl, hp, hr, rfl⟩
  | cons st program ih =>
    intro s hr hp hwf
    obtain ⟨hst, hprogram⟩ := Bool.and_eq_true_iff.1 hwf
    obtain ⟨t, hstep, htr, hpage, hpending, hknown⟩ := step_stmt hr hp hst
    have hbase : t.baseAddr = s.baseAddr := congrArg (32 * ·) hpage
    obtain ⟨u, hrun, hu, hur, hupage⟩ := ih t htr (hbase ▸ hpending) (hknown ▸ hprogram)
    exact ⟨u, (run_succ_of_step (M := core) hstep _).trans hrun, hu, hur, hupage.trans hpage⟩

end Sys2Proof.Machine
end

section
/-! PROOFS. The encoding (R80 to R89): the decoder and the encoder are inverse and the illegal words
are the reserved ones; a command reads no bit outside its operand format; a pseudo-statement runs
its command on the operands it packs. -/

namespace Sys2Proof.Machine

/-! ### Command words (R80 to R87) -/

/-- A command word is its two fields (R81). -/
theorem fieldRsv_append_fieldOpc (v : Word) : fieldRsv v ++ fieldOpc v = v :=
  BitVec.extractLsb'_append_extractLsb' (w := 28) (len := 4)

theorem eq_encode_iff {v : Word} {i : Instr} :
    v = encode i ↔ fieldRsv v = 0 ∧ fieldOpc v = opcodeOf i := by
  constructor
  · rintro rfl
    exact ⟨BitVec.extractLsb'_append_eq_left, BitVec.extractLsb'_append_eq_right⟩
  · rintro ⟨hrsv, hopc⟩
    rw [encode, ← hrsv, ← hopc, fieldRsv_append_fieldOpc]

/-- The opcode map, read from right to left (R83). -/
theorem decodeOpc_eq_ok_iff {opc : BitVec 4} {i : Instr} :
    decodeOpc opc.toNat = .ok i ↔ opc = opcodeOf i := by
  revert opc
  cases i <;> decide

/-- The opcodes the map leaves out (R83, R87). -/
theorem decodeOpc_ne_ok_iff {opc : BitVec 4} :
    (∀ i, decodeOpc opc.toNat ≠ .ok i) ↔ opc = 0xD ∨ opc = 0xE ∨ opc = 0xF := by
  have hok : (decodeOpc opc.toNat).toBool = false ↔ opc = 0xD ∨ opc = 0xE ∨ opc = 0xF := by
    revert opc
    decide
  rw [← hok]
  cases decodeOpc opc.toNat with
  | ok i => simp [Except.toBool]
  | error e => simp [Except.toBool]

theorem decode_eq_ok_iff {v : Word} {i : Instr} :
    decode v = .ok i ↔ fieldRsv v = 0 ∧ decodeOpc (fieldOpc v).toNat = .ok i := by
  unfold decode
  split <;> simp_all

/-- Settles O3: a word is its two fields, and the opcode map is read in both directions. -/
theorem decodeAndEncodeAgree : Obligations.DecodeAndEncodeAgree := by
  intro v i
  rw [decode_eq_ok_iff, decodeOpc_eq_ok_iff, eq_encode_iff]

@[simp] theorem decode_encode (i : Instr) : decode (encode i) = .ok i :=
  (decodeAndEncodeAgree _ i).2 rfl

/-- Settles O2: each of the thirteen words is the word of its command. -/
theorem opcodeMapDecodes : Obligations.OpcodeMapDecodes :=
  ⟨decode_encode .nop, decode_encode .crcClr, decode_encode .crcByte, decode_encode .crcCmp,
    decode_encode .crcChk1, decode_encode .crcChk2, decode_encode .convT, decode_encode .convRh,
    decode_encode .measT, decode_encode .measRh, decode_encode .compRh, decode_encode .dewpt,
    decode_encode .statClr⟩

/-- Settles O4: with `RSV` not 0 no word is a command's, and with `RSV` 0 the opcode decides. -/
theorem illegalWordsAreTheReservedOnes : Obligations.IllegalWordsAreTheReservedOnes := by
  intro v
  change _ ↔ fieldRsv v ≠ 0 ∨ fieldOpc v = 0xD ∨ fieldOpc v = 0xE ∨ fieldOpc v = 0xF
  rw [← decodeOpc_ne_ok_iff]
  by_cases hrsv : fieldRsv v = 0
  · simp only [ne_eq, decode_eq_ok_iff, hrsv, true_and, not_true_eq_false, false_or]
  · simp only [ne_eq, decode_eq_ok_iff, hrsv, false_and, not_false_eq_true, true_or, implies_true]

/-! ### Ignored operand bits (R84, R85) -/

/-- The state with other words in the operand registers. -/
def withOperands (a b : Word) (s : State) : State := { s with arg0 := a, arg1 := b }

@[simp] theorem withOperands_arg0 (a b : Word) (s : State) : (withOperands a b s).arg0 = a := rfl

theorem withOperands_self (s : State) : withOperands s.arg0 s.arg1 s = s := rfl

/-- Words that agree on a mask have the same field wherever the mask is all ones. -/
theorem extractLsb'_eq_of_and_eq {x y m : Word} {start len : Nat} (h : x &&& m = y &&& m)
    (hm : m.extractLsb' start len = BitVec.allOnes len) :
    x.extractLsb' start len = y.extractLsb' start len := by
  have hfield := congrArg (BitVec.extractLsb' start len) h
  rwa [BitVec.extractLsb'_and, BitVec.extractLsb'_and, hm, BitVec.and_allOnes,
    BitVec.and_allOnes] at hfield

section
variable {x y m : Word} (h : x &&& m = y &&& m)
include h

theorem argLowByte_eq_of_and_eq (hm : argLowByte m = BitVec.allOnes 8) :
    argLowByte x = argLowByte y := extractLsb'_eq_of_and_eq h hm

theorem argD0_eq_of_and_eq (hm : argD0 m = BitVec.allOnes 8) : argD0 x = argD0 y :=
  extractLsb'_eq_of_and_eq h hm

theorem argD1_eq_of_and_eq (hm : argD1 m = BitVec.allOnes 8) : argD1 x = argD1 y :=
  extractLsb'_eq_of_and_eq h hm

theorem argRaw_eq_of_and_eq (hm : argRaw m = BitVec.allOnes 16) : argRaw x = argRaw y :=
  extractLsb'_eq_of_and_eq h hm

theorem argResponseRaw_eq_of_and_eq (hm : argResponseRaw m = BitVec.allOnes 16) :
    argResponseRaw x = argResponseRaw y := extractLsb'_eq_of_and_eq h hm

end

/-- A measurement reads only the three bytes of its response (R85, format `B3`). -/
theorem checkThenConvert_withOperands (fx : RawWord → Int) {s : State} {a : Word} (b : Word)
    (h : a &&& 0x00FFFFFF = s.arg0 &&& 0x00FFFFFF) :
    checkThenConvert fx (withOperands a b s) = withOperands a b (checkThenConvert fx s) := by
  have hck : argLowByte a = argLowByte s.arg0 := argLowByte_eq_of_and_eq h rfl
  have hd0 : argD0 a = argD0 s.arg0 := argD0_eq_of_and_eq h rfl
  have hd1 : argD1 a = argD1 s.arg0 := argD1_eq_of_and_eq h rfl
  have hraw : argResponseRaw a = argResponseRaw s.arg0 := argResponseRaw_eq_of_and_eq h rfl
  by_cases hcrc : crc8 [argD1 s.arg0, argD0 s.arg0] = argLowByte s.arg0
  · rw [checkThenConvert_match fx s hcrc, checkThenConvert_match fx _ (by simpa [hck, hd0, hd1]),
      withOperands_arg0, hck, hraw]
    rfl
  · rw [checkThenConvert_mismatch fx s hcrc,
      checkThenConvert_mismatch fx _ (by simpa [hck, hd0, hd1]), withOperands_arg0, hck, hd0, hd1]
    rfl

/-- A command that reads both operands whole is given the same two again. -/
theorem exec_withOperands_self {i : Instr} {s : State} {a b : Word} (ha : a = s.arg0)
    (hb : b = s.arg1) :
    ∃ t, exec i s = .next t ∧ exec i (withOperands a b s) = .next (withOperands a b t) := by
  obtain ⟨f, hf, hexec⟩ := exec_effect i s
  obtain ⟨harg0, harg1, -⟩ := hf.operands_eq s
  have hrun : exec i s = .next (f s) := hexec s ⟨rfl, rfl, rfl, rfl⟩
  refine ⟨f s, hrun, ?_⟩
  rw [ha, hb, withOperands_self, hrun, ← harg0, ← harg1, withOperands_self]

/-- Settles O55: a command takes from `ARG0` fields inside its operand format only, or it is of
format `F2`, and then both operands are the same as before. -/
theorem ignoredOperandBitsDoNotMatter : Obligations.IgnoredOperandBitsDoNotMatter := by
  intro i s a b ha hb
  change ∃ t, exec i s = .next t ∧ exec i (withOperands a b s) = .next (withOperands a b t)
  cases i with
  | nop | crcClr | statClr => exact ⟨_, rfl, rfl⟩
  | crcByte =>
    refine ⟨_, rfl, ?_⟩
    rw [exec, execCrcByte, withOperands_arg0, argLowByte_eq_of_and_eq ha rfl]
    rfl
  | crcCmp =>
    refine ⟨_, rfl, ?_⟩
    rw [exec, execCrcCmp, withOperands_arg0, argLowByte_eq_of_and_eq ha rfl]
    rfl
  | crcChk1 =>
    refine ⟨_, rfl, ?_⟩
    rw [exec, execCrcChk1, withOperands_arg0, argLowByte_eq_of_and_eq ha rfl,
      argD0_eq_of_and_eq ha rfl]
    rfl
  | crcChk2 =>
    refine ⟨_, rfl, ?_⟩
    rw [exec, execCrcChk2, withOperands_arg0, argLowByte_eq_of_and_eq ha rfl,
      argD0_eq_of_and_eq ha rfl, argD1_eq_of_and_eq ha rfl]
    rfl
  | convT =>
    refine ⟨_, rfl, ?_⟩
    rw [exec, execConvT, withOperands_arg0, argRaw_eq_of_and_eq ha rfl]
    rfl
  | convRh =>
    refine ⟨_, rfl, ?_⟩
    rw [exec, execConvRh, withOperands_arg0, argRaw_eq_of_and_eq ha rfl]
    rfl
  | measT => exact ⟨_, rfl, congrArg _ (checkThenConvert_withOperands tempFx b ha)⟩
  | measRh => exact ⟨_, rfl, congrArg _ (checkThenConvert_withOperands humidityFx b ha)⟩
  | compRh | dewpt =>
    have hwhole : a = s.arg0 := (BitVec.and_allOnes.symm.trans ha).trans BitVec.and_allOnes
    exact exec_withOperands_self hwhole (hb rfl)

/-! ### Pseudo-statements (R89) -/

theorem packB1_eq (d : Byte) : packB1 d = d.setWidth 32 :=
  (BitVec.setWidth_eq_append (by decide)).symm

theorem packW16_eq (w : RawWord) : packW16 w = w.setWidth 32 :=
  (BitVec.setWidth_eq_append (by decide)).symm

theorem packB2_eq (d0 ck : Byte) :
    packB2 d0 ck = (d0.setWidth 32 <<< 8) ||| ck.setWidth 32 := by
  rw [packB2, ← BitVec.setWidth_eq ((0 : BitVec 16) ++ d0 ++ ck),
    BitVec.setWidth_append_append_eq_shiftLeft_setWidth_or]
  simp

theorem packB3_eq (d1 d0 ck : Byte) : packB3 d1 d0 ck =
    (d1.setWidth 32 <<< 16) ||| (d0.setWidth 32 <<< 8) ||| ck.setWidth 32 := by
  rw [packB3, ← BitVec.setWidth_eq ((0 : Byte) ++ d1 ++ d0 ++ ck),
    BitVec.setWidth_append_append_append_eq_shiftLeft_setWidth_or]
  simp

/-- The data of a host write depends on the host's variables alone (R88). -/
theorem sourceValue_of_reads_eq {src : Source} {s t : State} (h : t.reads = s.reads) :
    sourceValue src t = sourceValue src s := by
  cases src with
  | lit v => rfl
  | var x => exact congrArg (lookupVar x) h

/-- The host is about to issue a program before all else. -/
def State.issueFirst (s : State) (program : List Stmt) : State :=
  { s with pending := assemble s.baseAddr program ++ s.pending }

theorem runPseudo_eq (n : Nat) (p : Pseudo) (s : State) :
    runPseudo n p s = core.run n (s.issueFirst p.expand) := rfl

theorem run_core_succ {s t : State} (h : step s = .next t) (n : Nat) :
    core.run (n + 1) s = core.run n t :=
  run_succ_of_step (M := core) (s := s) (t := t) h n

/-- A write of an operand register, whose data the host has, is one step, after which the rest of
the program is about to be issued. -/
theorem run_issueFirst_operand {s t : State} {r : HostReg} {src : Source} {v : Word}
    (hr : s.inReset = false) (hv : sourceValue src s = some v)
    (hop : r = .arg0 ∧ t = { s with arg0 := v } ∨ r = .arg1 ∧ t = { s with arg1 := v })
    (n : Nat) (program : List Stmt) :
    core.run (n + 1) (s.issueFirst (.wr r src :: program)) = core.run n (t.issueFirst program) := by
  have hv' : sourceValue src (s.issueFirst (.wr r src :: program)) = some v :=
    (sourceValue_of_reads_eq rfl).trans hv
  have hstep : step (s.issueFirst (.wr r src :: program)) = .next (t.issueFirst program) := by
    rw [step_write (s := s.issueFirst (.wr r src :: program)) hr rfl hv']
    obtain ⟨rfl, rfl⟩ | ⟨rfl, rfl⟩ := hop <;> rfl
  exact run_core_succ hstep n

/-- A statement `cmd` alone runs its command, and the later events stay outstanding. -/
theorem run_issueFirst_cmd {s : State} (hr : s.inReset = false) (i : Instr) :
    core.run 1 (s.issueFirst [.cmd i]) = exec i s := by
  obtain ⟨f, -, hexec⟩ := exec_effect i s
  have hrun : exec i s = .next (f s) := hexec s ⟨rfl, rfl, rfl, rfl⟩
  have hstep : step (s.issueFirst [.cmd i]) = execute (encode i) s :=
    step_write (s := s.issueFirst [.cmd i]) hr rfl rfl
  rw [execute_of_decode_ok (decode_encode i), hrun] at hstep
  exact (run_core_succ hstep 0).trans hrun.symm

section
variable {s : State} {p : Pseudo} {i : Instr}

theorem runPseudo_of_cmd (hp : p.expand = [.cmd i]) (hr : s.inReset = false) :
    runPseudo 1 p s = exec i s := by
  rw [runPseudo_eq, hp, run_issueFirst_cmd hr]

/-- A pseudo-statement with one operand, which the host has, runs its command with it in `ARG0`. -/
theorem runPseudo_of_arg0 {src : Source} {v : Word} (hp : p.expand = [.wr .arg0 src, .cmd i])
    (hr : s.inReset = false) (hv : sourceValue src s = some v) :
    runPseudo 2 p s = exec i { s with arg0 := v } := by
  rw [runPseudo_eq, hp, run_issueFirst_operand hr hv (.inl ⟨rfl, rfl⟩)]
  exact run_issueFirst_cmd (s := { s with arg0 := v }) hr i

/-- A pseudo-statement with two operands, which the host has, runs its command with them in `ARG0`
and `ARG1`. -/
theorem runPseudo_of_arg0_arg1 {src0 src1 : Source} {v w : Word}
    (hp : p.expand = [.wr .arg0 src0, .wr .arg1 src1, .cmd i]) (hr : s.inReset = false)
    (hv : sourceValue src0 s = some v) (hw : sourceValue src1 s = some w) :
    runPseudo 3 p s = exec i { s with arg0 := v, arg1 := w } := by
  have hw' : sourceValue src1 { s with arg0 := v } = some w :=
    (sourceValue_of_reads_eq rfl).trans hw
  rw [runPseudo_eq, hp, run_issueFirst_operand hr hv (.inl ⟨rfl, rfl⟩),
    run_issueFirst_operand (s := { s with arg0 := v }) hr hw' (.inr ⟨rfl, rfl⟩)]
  exact run_issueFirst_cmd (s := { s with arg0 := v, arg1 := w }) hr i

end

/-- The verdict of `CRC_CHK2` on packed bytes (R114). -/
theorem execCrcChk2_packB3 (d1 d0 ck : Byte) (s : State) :
    exec .crcChk2 { s with arg0 := packB3 d1 d0 ck } = .next
      (compareCrc (crc8 [d1, d0]) ck { s with arg0 := packB3 d1 d0 ck }) := by
  have hd0 : argD0 (packB3 d1 d0 ck) = d0 := argD0_append _ d0 ck
  have hck : argLowByte (packB3 d1 d0 ck) = ck := argLowByte_append _ ck
  simp only [exec, execCrcChk2, argD1_packB3, hd0, hck]

/-- Settles O59: each expansion is a command, after writes of none, one or two operands, and a
packed operand is the bytes shifted and ORed. -/
theorem pseudoStatementsRunTheirCommands : Obligations.PseudoStatementsRunTheirCommands := by
  intro s hr
  refine ⟨runPseudo_of_cmd rfl hr, runPseudo_of_cmd rfl hr, runPseudo_of_cmd rfl hr,
    fun b => ?_, fun c => ?_, fun d0 ck => ?_, fun w => ?_, fun w => ?_, fun d1 d0 ck => ?_,
    fun t rh T RH hT hRH => ?_, fun d1 d0 ck => ?_⟩
  · exact packB1_eq b ▸ runPseudo_of_arg0 rfl hr rfl
  · exact packB1_eq c ▸ runPseudo_of_arg0 rfl hr rfl
  · exact packB2_eq d0 ck ▸ runPseudo_of_arg0 rfl hr rfl
  · exact packW16_eq w ▸ runPseudo_of_arg0 rfl hr rfl
  · exact packW16_eq w ▸ runPseudo_of_arg0 rfl hr rfl
  · rw [← packB3_eq]
    exact ⟨runPseudo_of_arg0 rfl hr rfl, runPseudo_of_arg0 rfl hr rfl,
      runPseudo_of_arg0 rfl hr rfl⟩
  · exact ⟨runPseudo_of_arg0_arg1 rfl hr hT hRH, runPseudo_of_arg0_arg1 rfl hr hT hRH⟩
  · have hrun : runPseudo 2 (.crcChk2 d1 d0 ck) s = _ :=
      (runPseudo_of_arg0 rfl hr rfl).trans (execCrcChk2_packB3 d1 d0 ck s)
    dsimp only
    rw [hrun]
    by_cases hcrc : crc8 [d1, d0] = ck
    · rw [if_pos hcrc, hcrc, compareCrc_match]
    · rw [if_neg hcrc, compareCrc_mismatch hcrc]

end Sys2Proof.Machine
end

section
/-! PROOFS. The CRC unit (R100 to R114): the register form of the CRC with its table, its laws and
its 16-bit twin; the polynomial division it performs and the errors that division catches; and the
five CRC commands, alone and in a stream. -/

namespace Sys2Proof.Machine

open Polynomial

/-! ### The register form (R102, R103, R105 to R107) -/

theorem crc8Shift_xor (x y : Byte) : crc8Shift (x ^^^ y) = crc8Shift x ^^^ crc8Shift y := by
  unfold crc8Shift
  rw [BitVec.getLsbD_xor, BitVec.shiftLeft_xor_distrib]
  cases x.getLsbD 7 <;> cases y.getLsbD 7 <;> grind

theorem crc8Shifts_xor (n : Nat) (x y : Byte) :
    crc8Shifts n (x ^^^ y) = crc8Shifts n x ^^^ crc8Shifts n y := by
  induction n generalizing x y with
  | zero => rfl
  | succ n ih => simp only [crc8Shifts, crc8Shift_xor, ih]

/-- The feedback byte is odd and a shifted byte is even, so only 0 is shifted to 0. -/
theorem crc8Shift_eq_zero_iff {x : Byte} : crc8Shift x = 0 ↔ x = 0 := by
  revert x
  decide

theorem crc8Shifts_eq_zero_iff {n : Nat} {x : Byte} : crc8Shifts n x = 0 ↔ x = 0 := by
  induction n generalizing x with
  | zero => rfl
  | succ n ih => exact ih.trans crc8Shift_eq_zero_iff

theorem crc8Step_eq_zero_iff {c b : Byte} : crc8Step c b = 0 ↔ c = b :=
  crc8Shifts_eq_zero_iff.trans BitVec.xor_eq_zero_iff

/-- The step is linear in both operands at once (R106 item 1). -/
theorem crc8Step_xor (c d b e : Byte) :
    crc8Step (c ^^^ d) (b ^^^ e) = crc8Step c b ^^^ crc8Step d e := by
  rw [crc8Step, crc8Step, crc8Step, ← crc8Shifts_xor]
  congr 1
  ac_rfl

/-- The step depends on the exclusive OR of its operands alone (R106 item 1). -/
theorem crc8Step_eq_zero_xor (c b : Byte) : crc8Step c b = crc8Step 0 (c ^^^ b) :=
  congrArg (crc8Shifts 8) BitVec.zero_xor.symm

theorem crc8_concat (bytes : List Byte) (b : Byte) :
    crc8 (bytes ++ [b]) = crc8Step (crc8 bytes) b := List.foldl_concat ..

/-- Settles O35: the last step is 0 only when the byte fed is the remainder. -/
theorem validationFormsAgree : Obligations.ValidationFormsAgree := by
  intro bytes c
  rw [crc8_concat, crc8Step_eq_zero_iff]

/-- The table as R107 computes it: the step from 0, byte by byte. -/
theorem crcTable_eq_map :
    crcTable = (List.range 256).map fun n => crc8Step 0 (BitVec.ofNat 8 n) := by
  decide +kernel

/-- Settles O38: the printed table is the list of the 256 steps from 0. -/
theorem tableIsTheStepFromZero : Obligations.TableIsTheStepFromZero := by
  intro x
  have hx : (List.range 256)[x.toNat]? = some x.toNat := List.getElem?_range x.isLt
  rw [crcTable_eq_map, List.getElem?_map, hx, Option.map_some, BitVec.ofNat_toNat,
    BitVec.setWidth_eq]

theorem crc8_replicate_zero_append (n : Nat) (bytes : List Byte) :
    crc8 (List.replicate n 0 ++ bytes) = crc8 bytes := by
  have hzero : crc8Step 0 0 = 0 := crc8Step_eq_zero_iff.2 rfl
  induction n with
  | zero => rfl
  | succ n ih =>
    rw [List.replicate_succ, List.cons_append, crc8, List.foldl_cons, hzero]
    exact ih

/-- Settles O36: a step takes in `c ^ b` only, so it is a table entry, and a step from 0 on the
byte 0 stays at 0. -/
theorem crcLinearityAndLeadingZeros : Obligations.CrcLinearityAndLeadingZeros := by
  refine ⟨fun c b => ⟨crc8Step_eq_zero_xor c b, ?_⟩, crc8_replicate_zero_append,
    tableIsTheStepFromZero⟩
  rw [crc8Step_eq_zero_xor c b]
  exact tableIsTheStepFromZero (c ^^^ b)

/-! ### The 16-bit formulation (R108) -/

theorem append_zero_shiftLeft_one (x : Byte) :
    (x ++ (0 : Byte)) <<< 1 = (x <<< 1) ++ (0 : Byte) := by
  grind

/-- The two registers stay in step: the polynomial, shifted left, is the feedback byte in the high
half (C1 of 90_conflicts.md). -/
theorem crc16Shift_append_zero (x : Byte) :
    crc16Shift (x ++ (0 : Byte)) = crc8Shift x ++ (0 : Byte) := by
  have hpoly : crcPoly16 <<< 1 = crcFeedback ++ (0 : Byte) := rfl
  have htop : (x ++ (0 : Byte)).getLsbD 15 = x.getLsbD 7 := BitVec.getLsbD_append
  rw [crc16Shift, crc8Shift, htop, BitVec.shiftLeft_xor_distrib, append_zero_shiftLeft_one, hpoly,
    BitVec.xor_append, BitVec.xor_self]
  split <;> rfl

theorem crc16Shifts_append_zero (n : Nat) (x : Byte) :
    crc16Shifts n (x ++ (0 : Byte)) = crc8Shifts n x ++ (0 : Byte) := by
  induction n generalizing x with
  | zero => rfl
  | succ n ih => rw [crc16Shifts, crc16Shift_append_zero, ih, crc8Shifts]

theorem crc16Literal_concat (bytes : List Byte) (b : Byte) : crc16Literal (bytes ++ [b]) =
    crc16Shifts 8 (crc16Literal bytes ^^^ (b ++ (0 : Byte))) := List.foldl_concat ..

/-- Settles O39, by induction on the bytes: a byte enters the high half, and each shift keeps the
high half the 8-bit register and the low half 0. -/
theorem literalAccumulatorHoldsTheCrcHigh : Obligations.LiteralAccumulatorHoldsTheCrcHigh := by
  intro bytes
  induction bytes using List.reverseRecOn with
  | nil => rfl
  | append_singleton bytes b ih =>
    rw [crc16Literal_concat, ih, BitVec.xor_append, BitVec.xor_self, crc8_concat]
    exact crc16Shifts_append_zero 8 _

/-! ### Words as polynomials over GF(2) (R100) -/

/-- The polynomial a word is: bit `i` is the coefficient of `x^i`.  At width 8 it is `bytePoly`. -/
noncomputable def wordPoly {n : Nat} (e : BitVec n) : (ZMod 2)[X] :=
  ∑ i ∈ Finset.range n, if e.getLsbD i then X ^ i else 0

theorem wordPoly_byte (b : Byte) : wordPoly b = bytePoly b := rfl

theorem coeff_wordPoly {n : Nat} (e : BitVec n) (i : Nat) :
    (wordPoly e).coeff i = if e.getLsbD i then 1 else 0 := by
  have hterm (k : Nat) : (if e.getLsbD k then X ^ k else 0 : (ZMod 2)[X]).coeff i =
      if k = i then (if e.getLsbD i then 1 else 0) else 0 := by
    by_cases hk : k = i
    · subst hk
      split <;> simp
    · split <;> simp [coeff_X_pow, Ne.symm hk]
  simp only [wordPoly, finsetSum_coeff, hterm, Finset.sum_ite_eq', Finset.mem_range]
  by_cases hi : i < n
  · simp [hi]
  · simp [hi, BitVec.getLsbD_of_ge e i (by omega)]

theorem wordPoly_xor {n : Nat} (x y : BitVec n) :
    wordPoly (x ^^^ y) = wordPoly x + wordPoly y := by
  ext i
  simp only [coeff_add, coeff_wordPoly, BitVec.getLsbD_xor]
  cases x.getLsbD i <;> cases y.getLsbD i <;> decide

theorem wordPoly_append {n m : Nat} (x : BitVec n) (y : BitVec m) :
    wordPoly (x ++ y) = wordPoly x * X ^ m + wordPoly y := by
  ext i
  simp only [coeff_add, coeff_mul_X_pow', coeff_wordPoly, BitVec.getLsbD_append]
  by_cases hi : i < m
  · simp [hi]
  · simp [hi, not_lt.1 hi]

/-- A word moved left inside a wider one is multiplied by a power of `x`. -/
theorem wordPoly_setWidth_shiftLeft {n : Nat} (x : BitVec n) {m k : Nat} (h : n + k ≤ m) :
    wordPoly (x.setWidth m <<< k) = wordPoly x * X ^ k := by
  ext i
  simp only [coeff_mul_X_pow', coeff_wordPoly, BitVec.getLsbD_shiftLeft, BitVec.getLsbD_setWidth]
  by_cases hki : k ≤ i
  · by_cases hi : i < m
    · simp [hki, hi, show i - k < m by omega]
    · simp [hi, BitVec.getLsbD_of_ge x (i - k) (by omega)]
  · simp [hki, not_le.1 hki]

theorem wordPoly_setWidth {n : Nat} (x : BitVec n) {m : Nat} (h : n ≤ m) :
    wordPoly (x.setWidth m) = wordPoly x := by
  simpa using wordPoly_setWidth_shiftLeft x (k := 0) h

theorem wordPoly_eq_zero_iff {n : Nat} {e : BitVec n} : wordPoly e = 0 ↔ e = 0 := by
  constructor
  · intro h
    refine BitVec.eq_of_getLsbD_eq fun i _ => ?_
    have hcoeff := coeff_wordPoly e i
    rw [h] at hcoeff
    cases hi : e.getLsbD i
    · simp
    · simp [hi] at hcoeff
  · rintro rfl
    simp [wordPoly]

theorem degree_wordPoly_lt {n : Nat} (e : BitVec n) : (wordPoly e).degree < n := by
  refine (degree_lt_iff_coeff_zero _ _).2 fun i hi => ?_
  simp [coeff_wordPoly, BitVec.getLsbD_of_ge e i hi]

/-! ### The divisor (R100) -/

/-- `P(x)` is the nine bits 0x131. -/
theorem crcPoly_eq_wordPoly : crcPoly = wordPoly (0x131 : BitVec 9) := by
  have hbits : wordPoly (0x131 : BitVec 9) = 1 + X ^ 4 + X ^ 5 + X ^ 8 := by
    simp [wordPoly, Finset.sum_range_succ]
  rw [hbits, crcPoly]
  ring

theorem crcPoly_monic : crcPoly.Monic := by
  unfold crcPoly
  monicity!

theorem crcPoly_degree : crcPoly.degree = 8 := by
  unfold crcPoly
  compute_degree!

/-- A byte is its own remainder, being of degree below 8. -/
theorem bytePoly_modByMonic (b : Byte) : bytePoly b %ₘ crcPoly = bytePoly b :=
  (modByMonic_eq_self_iff crcPoly_monic).2 (crcPoly_degree ▸ degree_wordPoly_lt b)

theorem crcPoly_dvd_bytePoly_iff {b : Byte} : crcPoly ∣ bytePoly b ↔ b = 0 := by
  rw [← modByMonic_eq_zero_iff_dvd crcPoly_monic, bytePoly_modByMonic, ← wordPoly_byte,
    wordPoly_eq_zero_iff]

/-- `x` is invertible modulo `P(x)`, because `P(0) = 1` (R105). -/
theorem crcPoly_coprime_X_pow (n : Nat) : IsCoprime crcPoly (X ^ n) := by
  have hX : IsCoprime crcPoly X := ⟨1, -(X ^ 7 + X ^ 4 + X ^ 3), by unfold crcPoly; ring⟩
  exact hX.pow_right

theorem crcPoly_dvd_mul_X_pow_iff {p : (ZMod 2)[X]} {n : Nat} :
    crcPoly ∣ p * X ^ n ↔ crcPoly ∣ p :=
  ⟨(crcPoly_coprime_X_pow n).dvd_of_dvd_mul_right, fun h => h.mul_right _⟩

/-! ### The register divides (R104) -/

/-- A shift, with the bit shifted out: the subtraction of 0x131 where that bit is 1. -/
theorem setWidth_shiftLeft_one_eq (x : Byte) : x.setWidth 9 <<< 1 =
    (crc8Shift x).setWidth 9 ^^^ if x.getLsbD 7 then (0x131 : BitVec 9) else 0 := by
  revert x
  decide

theorem bytePoly_crc8Shift (x : Byte) :
    crcPoly ∣ bytePoly x * X - bytePoly (crc8Shift x) := by
  have hshift : bytePoly x * X =
      bytePoly (crc8Shift x) + wordPoly (if x.getLsbD 7 then (0x131 : BitVec 9) else 0) := by
    rw [← wordPoly_byte, ← wordPoly_byte, ← pow_one X,
      ← wordPoly_setWidth_shiftLeft x (m := 9) (by decide), setWidth_shiftLeft_one_eq, wordPoly_xor,
      wordPoly_setWidth _ (by decide)]
  rw [hshift, add_sub_cancel_left]
  split
  · rw [← crcPoly_eq_wordPoly]
  · simp [wordPoly_eq_zero_iff.2]

/-- `n` shifts multiply by `x^n` modulo `P(x)`. -/
theorem bytePoly_crc8Shifts (n : Nat) (x : Byte) :
    crcPoly ∣ bytePoly x * X ^ n - bytePoly (crc8Shifts n x) := by
  induction n generalizing x with
  | zero => simp [crc8Shifts]
  | succ n ih =>
    have hfirst := (bytePoly_crc8Shift x).mul_right (X ^ n)
    convert hfirst.add (ih (crc8Shift x)) using 1
    rw [crc8Shifts]
    ring

theorem messagePoly_concat (bytes : List Byte) (b : Byte) :
    messagePoly (bytes ++ [b]) = messagePoly bytes * X ^ 8 + bytePoly b := by
  simp [messagePoly]

/-- The remainder so far, times `x^8`, takes in the next byte by one step. -/
theorem bytePoly_crc8 (bytes : List Byte) :
    crcPoly ∣ messagePoly bytes * X ^ 8 - bytePoly (crc8 bytes) := by
  induction bytes using List.reverseRecOn with
  | nil => simp [messagePoly, crc8, ← wordPoly_byte, wordPoly_eq_zero_iff.2]
  | append_singleton bytes b ih =>
    have hstep := bytePoly_crc8Shifts 8 (crc8 bytes ^^^ b)
    rw [← wordPoly_byte (_ ^^^ _), wordPoly_xor, wordPoly_byte, wordPoly_byte] at hstep
    rw [messagePoly_concat, crc8_concat, crc8Step]
    convert (ih.mul_right (X ^ 8)).add hstep using 1
    ring

/-- Settles O34: the register is congruent to `M(x) * x^8` modulo `P(x)`, and of degree below 8. -/
theorem crcIsThePolynomialRemainder : Obligations.CrcIsThePolynomialRemainder := by
  intro bytes
  rw [IsCrc, modByMonic_eq_of_dvd_sub crcPoly_monic (bytePoly_crc8 bytes), bytePoly_modByMonic]

/-! ### Errors the CRC detects (R106) -/

/-- A message passes when `P(x)` divides it (R105). -/
theorem crc8_eq_zero_iff {bytes : List Byte} : crc8 bytes = 0 ↔ crcPoly ∣ messagePoly bytes := by
  have hcrc : bytePoly (crc8 bytes) = _ := crcIsThePolynomialRemainder bytes
  rw [← wordPoly_eq_zero_iff, wordPoly_byte, hcrc, modByMonic_eq_zero_iff_dvd crcPoly_monic,
    crcPoly_dvd_mul_X_pow_iff]

/-- A codeword with an error has the CRC of the error alone. -/
theorem crc8_codeword_xor (d1 d0 e1 e0 ek : Byte) :
    crc8 [d1 ^^^ e1, d0 ^^^ e0, crc8 [d1, d0] ^^^ ek] = crc8 [e1, e0, ek] := by
  have hcodeword : crc8 [d1, d0, crc8 [d1, d0]] = 0 := (validationFormsAgree [d1, d0] _).1 rfl
  calc crc8 [d1 ^^^ e1, d0 ^^^ e0, crc8 [d1, d0] ^^^ ek]
      = crc8 [d1, d0, crc8 [d1, d0]] ^^^ crc8 [e1, e0, ek] := by
        simp only [crc8, List.foldl_cons, List.foldl_nil, ← crc8Step_xor]
        rfl
    _ = crc8 [e1, e0, ek] := by rw [hcodeword]; exact BitVec.zero_xor

theorem messagePoly_error (e1 e0 ek : Byte) :
    messagePoly [e1, e0, ek] = wordPoly (e1 ++ e0 ++ ek) := by
  rw [wordPoly_append, wordPoly_append]
  simp [messagePoly, wordPoly_byte]

/-- The bits of a word that are 1. -/
def bitsSet {n : Nat} (e : BitVec n) : Finset Nat := (Finset.range n).filter fun i => e.getLsbD i

theorem wordPoly_eq_sum_bitsSet {n : Nat} (e : BitVec n) :
    wordPoly e = ∑ i ∈ bitsSet e, X ^ i :=
  (Finset.sum_filter _ _).symm

theorem lt_of_mem_bitsSet {n i : Nat} {e : BitVec n} (h : i ∈ bitsSet e) : i < n :=
  Finset.mem_range.1 (Finset.filter_subset _ _ h)

theorem countP_eq_card_bitsSet {n : Nat} (e : BitVec n) :
    (List.range n).countP (fun i => e.getLsbD i) = (bitsSet e).card := by
  simp [List.countP_eq_length_filter, bitsSet, Finset.card, Multiset.range]

/-- `P(1) = 0`, so `P(x)` divides no error of odd weight. -/
theorem even_card_bitsSet_of_dvd {n : Nat} {e : BitVec n} (h : crcPoly ∣ wordPoly e) :
    (bitsSet e).card % 2 = 0 := by
  have hterms : crcPoly.eval 1 = 1 + 1 + 1 + 1 := by simp [crcPoly]
  have hroot : crcPoly.eval 1 = 0 := hterms.trans (by decide)
  have heval : (wordPoly e).eval 1 = 0 := eval_eq_zero_of_dvd_of_eval_eq_zero h hroot
  have hcard : ((bitsSet e).card : ZMod 2) = 0 := by
    simpa [wordPoly_eq_sum_bitsSet, eval_finsetSum] using heval
  exact Nat.even_iff.1 (ZMod.natCast_eq_zero_iff_even.1 hcard)

/-- The order of `x` modulo `P(x)` is above 23: the register that starts at 1 is not 1 again. -/
theorem crc8Shifts_one_ne_one : ∀ d < 24, 0 < d → crc8Shifts d 1 ≠ 1 := by decide

/-- No two bits of a codeword cancel. -/
theorem not_crcPoly_dvd_two_bits {i j : Nat} (hij : i < j) (hj : j < 24) :
    ¬ crcPoly ∣ X ^ i + X ^ j := by
  intro h
  obtain ⟨d, rfl⟩ := Nat.exists_eq_add_of_lt hij
  have hone : bytePoly 1 = 1 := by simp [bytePoly]
  have hfactor : (X ^ i + X ^ (i + d + 1) : (ZMod 2)[X]) = (1 + X ^ (d + 1)) * X ^ i := by ring
  have hd : crcPoly ∣ 1 + X ^ (d + 1) := crcPoly_dvd_mul_X_pow_iff.1 (hfactor ▸ h)
  have hshift := bytePoly_crc8Shifts (d + 1) 1
  have hxor : crcPoly ∣ bytePoly (1 ^^^ crc8Shifts (d + 1) 1) := by
    rw [← wordPoly_byte, wordPoly_xor, wordPoly_byte, wordPoly_byte]
    convert hd.sub hshift using 1
    rw [hone]
    ring
  have hcycle := BitVec.xor_eq_zero_iff.1 (crcPoly_dvd_bytePoly_iff.1 hxor)
  exact crc8Shifts_one_ne_one (d + 1) (by omega) (by omega) hcycle.symm

/-- Of up to three bits, one or three are an odd number and two do not cancel. -/
theorem not_crcPoly_dvd_of_card_le_three {e : BitVec 24} (he : e ≠ 0) (h : (bitsSet e).card ≤ 3) :
    ¬ crcPoly ∣ wordPoly e := by
  intro hdvd
  have heven := even_card_bitsSet_of_dvd hdvd
  have hpos : (bitsSet e).card ≠ 0 := by
    intro hcard
    rw [Finset.card_eq_zero] at hcard
    apply he
    rw [← wordPoly_eq_zero_iff, wordPoly_eq_sum_bitsSet, hcard, Finset.sum_empty]
  obtain ⟨i, j, hne, hbits⟩ := Finset.card_eq_two.1 (show (bitsSet e).card = 2 by omega)
  have hi : i < 24 := lt_of_mem_bitsSet (show i ∈ bitsSet e by simp [hbits])
  have hj : j < 24 := lt_of_mem_bitsSet (show j ∈ bitsSet e by simp [hbits])
  rw [wordPoly_eq_sum_bitsSet, hbits, Finset.sum_pair hne] at hdvd
  obtain hij | hij := hne.lt_or_gt
  · exact not_crcPoly_dvd_two_bits hij hj hdvd
  · rw [add_comm] at hdvd
    exact not_crcPoly_dvd_two_bits hij hi hdvd

/-- A burst is a byte moved left, which `P(x)` divides only if the byte is 0. -/
theorem eq_zero_of_dvd_of_burst {b : Byte} {k : Nat} (hk : k ≤ 16)
    (h : crcPoly ∣ wordPoly (b.setWidth 24 <<< k)) : b.setWidth 24 <<< k = 0 := by
  rw [wordPoly_setWidth_shiftLeft b (by omega), crcPoly_dvd_mul_X_pow_iff] at h
  have hb : b = 0 := crcPoly_dvd_bytePoly_iff.1 h
  simp [hb]

/-- Settles O37: a codeword with an error passes only if `P(x)` divides the error, and it divides
none of the three classes. -/
theorem crcDetectsSmallErrors : Obligations.CrcDetectsSmallErrors := by
  intro d1 d0 e1 e0 ek e he hne hclass
  rw [crc8_codeword_xor, Ne, crc8_eq_zero_iff, messagePoly_error, ← he]
  rw [countP_eq_card_bitsSet] at hclass
  intro hdvd
  obtain hsmall | hodd | ⟨b, k, hk, rfl⟩ := hclass
  · exact not_crcPoly_dvd_of_card_le_three hne hsmall hdvd
  · have heven := even_card_bitsSet_of_dvd hdvd
    omega
  · exact hne (eq_zero_of_dvd_of_burst hk hdvd)

/-! ### The CRC commands (R110 to R114) -/

/-- Settles O8: the report of OK writes `CODE` alone. -/
theorem crcClrClearsTheAccumulator : Obligations.CrcClrClearsTheAccumulator := by
  refine ⟨decode_encode .crcClr, fun s => ?_⟩
  rw [exec, execCrcClr, report_ok]

/-- Settles O9: the report of OK writes `CODE` alone, after one step of the register. -/
theorem crcByteStepsTheAccumulator : Obligations.CrcByteStepsTheAccumulator := by
  refine ⟨decode_encode .crcByte, fun s => ?_⟩
  rw [exec, execCrcByte, report_ok]
  rfl

/-- A comparison with both verdicts (R112 to R114). -/
theorem compareCrc_eq_ite (c e : Byte) (s : State) : compareCrc c e s =
    if c = e then { s with calcCrc := c, crcOk := true, code := 0 }
    else { s with calcCrc := c, crcOk := false, code := 1, sticky := true } := by
  by_cases h : c = e
  · rw [if_pos h, ← h, compareCrc_match]
  · rw [if_neg h, compareCrc_mismatch h]

/-- Settles O10: the comparison of `ACC`. -/
theorem crcCmpComparesTheAccumulator : Obligations.CrcCmpComparesTheAccumulator :=
  ⟨decode_encode .crcCmp, fun s => congrArg _ (compareCrc_eq_ite s.acc (argLowByte s.arg0) s)⟩

/-- Settles O11: the comparison of the CRC of one byte. -/
theorem crcChk1ChecksOneByte : Obligations.CrcChk1ChecksOneByte :=
  ⟨decode_encode .crcChk1, fun s =>
    congrArg _ (compareCrc_eq_ite (crc8 [argD0 s.arg0]) (argLowByte s.arg0) s)⟩

/-- Settles O12: the comparison of the CRC of two bytes. -/
theorem crcChk2ChecksTwoBytes : Obligations.CrcChk2ChecksTwoBytes :=
  ⟨decode_encode .crcChk2, fun s =>
    congrArg _ (compareCrc_eq_ite (crc8 [argD1 s.arg0, argD0 s.arg0]) (argLowByte s.arg0) s)⟩

/-! ### A stream of bytes (R103, R111) -/

theorem afterWrites_cons {r : HostReg} {v : Word} {s t : State} (h : writeReg r v s = .next t)
    (rest : List (HostReg × Word)) : afterWrites ((r, v) :: rest) s = afterWrites rest t := by
  rw [afterWrites, h]

theorem writeReg_cmd_encode (i : Instr) (s : State) : writeReg .cmd (encode i) s = exec i s :=
  execute_of_decode_ok (decode_encode i) s

/-- The state after a byte has been streamed: what the two writes of it change. -/
def streamByte (b : Byte) (s : State) : State :=
  { s with arg0 := packB1 b, acc := crc8Step s.acc b, calcCrc := crc8Step s.acc b, code := 0 }

theorem afterWrites_streamWrites_cons (b : Byte) (bytes : List Byte) (s : State) :
    afterWrites (streamWrites (b :: bytes)) s =
      afterWrites (streamWrites bytes) (streamByte b s) := by
  have hbyte : argLowByte (packB1 b) = b := argLowByte_append _ b
  obtain ⟨-, hexec⟩ := crcByteStepsTheAccumulator
  have hcmd : writeReg .cmd (encode .crcByte) { s with arg0 := packB1 b } =
      .next (streamByte b s) := by
    rw [writeReg_cmd_encode, hexec, ← argLowByte, hbyte, streamByte]
  exact (afterWrites_cons rfl _).trans (afterWrites_cons hcmd _)

/-- Streaming goes on from the remainder in `ACC`, by induction on the bytes. -/
theorem afterWrites_streamWrites (bytes : List Byte) {s : State} (hcode : s.code = 0) :
    ∃ t, afterWrites (streamWrites bytes) s = .next t ∧ t.acc = bytes.foldl crc8Step s.acc ∧
      t = { s with arg0 := t.arg0, acc := t.acc, calcCrc := t.calcCrc, code := 0 } := by
  induction bytes generalizing s with
  | nil => exact ⟨s, rfl, rfl, hcode ▸ rfl⟩
  | cons b bytes ih =>
    obtain ⟨t, hrun, hacc, hframe⟩ := ih (s := streamByte b s) rfl
    exact ⟨t, (afterWrites_streamWrites_cons b bytes s).trans hrun, hacc, hframe⟩

/-- Settles O40: `CRC_CLR` leaves `ACC` and `CODE` 0, and the stream goes on from there. -/
theorem streamingComputesTheCrc : Obligations.StreamingComputesTheCrc := by
  intro s bytes
  obtain ⟨-, hexec⟩ := crcClrClearsTheAccumulator
  have hclr := (writeReg_cmd_encode .crcClr s).trans (hexec s)
  obtain ⟨t, hrun, hacc, hframe⟩ := afterWrites_streamWrites bytes
    (s := { s with acc := 0, code := 0 }) rfl
  exact ⟨t, (afterWrites_cons hclr _).trans hrun, hacc, hframe⟩

end Sys2Proof.Machine
end

section
/-! PROOFS. The value of a correctly rounded binary32 pattern (R9, R10): which number a finite
pattern has, when a fraction is delivered exactly, and how near the rounded value is below 256. -/

namespace Sys2Proof.Machine

/-! ### The value of a pattern (R9) -/

/-- A pattern has one value at most. -/
theorem f32Is_unique {b : Word} {x y : ℝ} (hx : f32Is b x) (hy : f32Is b y) : x = y := by
  obtain ⟨u, hu, rfl⟩ := hx
  obtain ⟨v, hv, rfl⟩ := hy
  rw [hu, F32.finite.injEq] at hv
  rw [hv]

theorem f32Is_zero : f32Is 0 0 := ⟨0, by decide, by simp [realOfUnits]⟩

/-- A word is put together from its sign and its magnitude. -/
theorem signedPattern_sign_magnitude (b : Word) :
    signedPattern (f32Sign b) (b.toNat % 2 ^ 31) = b := by
  have hlt : b.toNat % 2 ^ 31 < 2 ^ 31 := Nat.mod_lt _ (by norm_num)
  exact eq_of_sign_eq_of_magnitude_eq (f32Sign_signedPattern _ hlt) (magnitude_signedPattern _ hlt)

/-- A pattern below infinity's has its magnitude's value, with its sign. -/
theorem f32Is_signedPattern (neg : Bool) {n : Nat} (hn : n < 0x7F800000) :
    f32Is (signedPattern neg n) (if neg then -magnitudeValue n else magnitudeValue n) := by
  obtain ⟨hsign, hexp, hfrac⟩ := f32_fields (Nat.mod_lt n (by norm_num : 0 < 2 ^ 23))
    (by omega : n / 2 ^ 23 < 256) neg
  rw [Nat.div_add_mod'] at hsign hexp hfrac
  refine ⟨if neg then -(magnitudeUnits n : Int) else magnitudeUnits n, ?_, ?_⟩
  · rw [signedPattern, f32val, hsign, hexp, hfrac, if_neg (by omega)]
    rfl
  · cases neg <;> simp [realOfUnits, magnitudeValue_eq, neg_div]

/-! ### Exact results (R139) -/

/-- A fraction that is a significand times a power of two is delivered exactly. -/
theorem f32Is_rne32_of_dyadic {n : Int} {d c j : Nat} (hd : 0 < d) (hc : c < 2 ^ 24)
    (hj : j ≤ 230) (h : n.natAbs * 2 ^ 149 = c * 2 ^ j * d) :
    f32Is (rne32 ⟨n, d⟩) (fracToReal ⟨n, d⟩) := by
  obtain ⟨e, f, he, hf, hunits⟩ := exists_f32Units c j hc hj
  rw [← hunits] at h
  refine ⟨_, f32val_rne32_exact hd hf he h, ?_⟩
  have hvalue : n.sign * f32Units e f * d = n * 2 ^ 149 := by
    calc n.sign * f32Units e f * d = n.sign * ((f32Units e f * d : Nat) : Int) := by push_cast; ring
      _ = n.sign * n.natAbs * 2 ^ 149 := by rw [← h]; push_cast; ring
      _ = n * 2 ^ 149 := by rw [Int.sign_mul_natAbs]
  rw [realOfUnits, fracToReal, div_eq_div_iff (by positivity) (by positivity)]
  exact_mod_cast hvalue

/-- A value that a pattern has is a whole number over a power of two, so an odd factor of the
denominator divides the numerator. -/
theorem dvd_num_of_f32Is {b : Word} {n : Int} {r k : Nat} (hr : Nat.Coprime r 2)
    (hr0 : 0 < r) (h : f32Is b (fracToReal ⟨n, 2 ^ k * r⟩)) : (r : Int) ∣ n := by
  obtain ⟨u, -, hu⟩ := h
  rw [realOfUnits, fracToReal, div_eq_div_iff (by positivity) (by positivity)] at hu
  have hint : u * (2 ^ k * r) = n * 2 ^ 149 := by exact_mod_cast hu
  have hcop : IsCoprime (r : Int) (2 ^ 149) :=
    (Nat.isCoprime_iff_coprime.2 hr).pow_right
  exact hcop.dvd_of_dvd_mul_right ⟨u * 2 ^ k, by rw [← hint]; ring⟩

/-! ### The error of rounding (R10) -/

/-- Below 256 the magnitudes lie at most `2^-16` apart. -/
theorem exists_magnitudeValue_near {y : ℝ} (h0 : 0 ≤ y) (hy : y < 256) :
    ∃ m ≤ 0x7F800000, |magnitudeValue m - y| ≤ 1 / 2 ^ 16 := by
  obtain ⟨c, hc, hlo, hhi⟩ : ∃ c : Nat, c < 2 ^ 24 ∧ c ≤ y * 2 ^ 16 ∧ y * 2 ^ 16 < c + 1 := by
    have hscaled : 0 ≤ y * 2 ^ 16 := by positivity
    exact ⟨⌊y * 2 ^ 16⌋₊, (Nat.floor_lt hscaled).2 (by norm_num; linarith),
      Nat.floor_le hscaled, Nat.lt_floor_add_one _⟩
  obtain ⟨e, f, he, hf, hunits⟩ := exists_f32Units c 133 hc (by norm_num)
  refine ⟨e * 2 ^ 23 + f, by omega, ?_⟩
  have hvalue : magnitudeValue (e * 2 ^ 23 + f) = (c : ℝ) / 2 ^ 16 := by
    rw [magnitudeValue_eq, magnitudeUnits, show (e * 2 ^ 23 + f) / 2 ^ 23 = e by omega,
      show (e * 2 ^ 23 + f) % 2 ^ 23 = f by omega, hunits]
    push_cast
    ring
  rw [hvalue, abs_le]
  constructor <;> linarith

theorem magnitudeValue_infinity : magnitudeValue 0x7F800000 = 2 ^ 128 := by
  norm_num [magnitudeValue, f32Units, realOfUnits]

/-- A nearest magnitude is within `2^-16` below 256, and so it is not infinity's. -/
theorem NearestMagnitude.near {y : ℝ} {n : Nat} (hn : NearestMagnitude y n) (h0 : 0 ≤ y)
    (hy : y < 256) : n < 0x7F800000 ∧ |magnitudeValue n - y| ≤ 1 / 2 ^ 16 := by
  obtain ⟨m, hm, hnear⟩ := exists_magnitudeValue_near h0 hy
  have hdist := (hn.dist_le hm).trans hnear
  refine ⟨hn.1.lt_of_ne ?_, hdist⟩
  rintro rfl
  rw [magnitudeValue_infinity, abs_le] at hdist
  norm_num at hdist
  linarith

/-- A number below 256 is rounded to a finite value that is at most `2^-16` away. -/
theorem IsRne.near {x : ℝ} {b : Word} (h : IsRne x b) (hx : |x| < 256) :
    ∃ v, f32Is b v ∧ |v - x| ≤ 1 / 2 ^ 16 := by
  by_cases h0 : x = 0
  · exact ⟨0, h.1 h0 ▸ f32Is_zero, by simp [h0]⟩
  obtain ⟨hsign, hnearest⟩ := (isRne_iff_of_ne_zero h0 b).1 h
  obtain ⟨hfinite, hdist⟩ := hnearest.near (abs_nonneg x) hx
  refine ⟨_, signedPattern_sign_magnitude b ▸ f32Is_signedPattern (f32Sign b) hfinite, ?_⟩
  by_cases hneg : x < 0
  · rwa [if_pos (hsign.2 hneg), ← abs_neg, neg_sub', neg_neg, ← abs_of_neg hneg]
  · rwa [if_neg (mt hsign.1 hneg), ← abs_of_nonneg (not_lt.1 hneg)]

end Sys2Proof.Machine
end

section
/-! PROOFS. The conversion unit (R130 to R143): what the four commands do; what the numerator of a
conversion is; and from these that `RES1` is exact and `RES0` correctly rounded, exact where the
rules say so, and strictly increasing. -/

namespace Sys2Proof.Machine

/-! ### The commands (R140 to R143) -/

/-- Settles O13: the report of OK writes `CODE` alone, after the conversion's results. -/
theorem convTConverts : Obligations.ConvTConverts := by
  refine ⟨decode_encode .convT, fun s => ?_⟩
  rw [exec, execConvT, report_ok]
  rfl

/-- Settles O14: the report of OK writes `CODE` alone, after the conversion's results. -/
theorem convRhConverts : Obligations.ConvRhConverts := by
  refine ⟨decode_encode .convRh, fun s => ?_⟩
  rw [exec, execConvRh, report_ok]
  rfl

/-- A measurement with both verdicts (R142, R143). -/
theorem checkThenConvert_eq_ite (fx : RawWord → Int) (s : State) :
    checkThenConvert fx s =
      if crc8 [argD1 s.arg0, argD0 s.arg0] = argLowByte s.arg0 then
        { writeConversion (fx (argResponseRaw s.arg0)) (argResponseRaw s.arg0) s with
          calcCrc := crc8 [argD1 s.arg0, argD0 s.arg0], crcOk := true, code := 0 }
      else { s with calcCrc := crc8 [argD1 s.arg0, argD0 s.arg0], crcOk := false, code := 1,
                    sticky := true } := by
  by_cases h : crc8 [argD1 s.arg0, argD0 s.arg0] = argLowByte s.arg0
  · rw [if_pos h, checkThenConvert_match fx s h, compareCrc_match, h]
  · rw [if_neg h, checkThenConvert_mismatch fx s h, compareCrc_mismatch h]

/-- Settles O15: the check of the response, with the temperature's numerator. -/
theorem measTChecksThenConverts : Obligations.MeasTChecksThenConverts :=
  ⟨decode_encode .measT, fun s => congrArg _ (checkThenConvert_eq_ite tempFx s)⟩

/-- Settles O16: the check of the response, with the humidity's numerator. -/
theorem measRhChecksThenConverts : Obligations.MeasRhChecksThenConverts :=
  ⟨decode_encode .measRh, fun s => congrArg _ (checkThenConvert_eq_ite humidityFx s)⟩

/-! ### The results of a converting command (R132, R133) -/

/-- The command completes, with the numerator `fx` in `RES1` and its quotient, rounded once, in
`RES0`. -/
def ConvertsTo (i : Instr) (s : State) (fx : Int) : Prop :=
  ∃ t, exec i s = .next t ∧ t.res1 = toU32 fx ∧ t.res0 = rne32 ⟨fx, 6553600⟩

theorem checkThenConvert_results {fx : RawWord → Int} {s : State}
    (h : crc8 [argD1 s.arg0, argD0 s.arg0] = argLowByte s.arg0) :
    (checkThenConvert fx s).res1 = toU32 (fx (argResponseRaw s.arg0)) ∧
      (checkThenConvert fx s).res0 = rne32 ⟨fx (argResponseRaw s.arg0), 6553600⟩ := by
  rw [checkThenConvert_match fx s h, compareCrc_match]
  exact ⟨rfl, rfl⟩

theorem ConvertsTemp.convertsTo {i : Instr} {s : State} {w : RawWord} (h : ConvertsTemp i s w) :
    ConvertsTo i s (tempFx w) := by
  obtain ⟨rfl, rfl⟩ | ⟨rfl, rfl, hcrc⟩ := h
  · exact ⟨_, rfl, rfl, rfl⟩
  · exact ⟨_, rfl, checkThenConvert_results hcrc⟩

theorem ConvertsHumidity.convertsTo {i : Instr} {s : State} {w : RawWord}
    (h : ConvertsHumidity i s w) : ConvertsTo i s (humidityFx w) := by
  obtain ⟨rfl, rfl⟩ | ⟨rfl, rfl, hcrc⟩ := h
  · exact ⟨_, rfl, rfl, rfl⟩
  · exact ⟨_, rfl, checkThenConvert_results hcrc⟩

theorem tempFx_congr {w w' : RawWord} (h : maskRaw w = maskRaw w') : tempFx w = tempFx w' := by
  rw [tempFx, h, tempFx]

theorem humidityFx_congr {w w' : RawWord} (h : maskRaw w = maskRaw w') :
    humidityFx w = humidityFx w' := by
  rw [humidityFx, h, humidityFx]

/-- Settles O21: the numerator is a function of the masked word. -/
theorem statusTagDoesNotChangeTheValue : Obligations.StatusTagDoesNotChangeTheValue := by
  intro i i' s s' w w' hw h
  obtain ⟨fx, hto, hto'⟩ : ∃ fx, ConvertsTo i s fx ∧ ConvertsTo i' s' fx := by
    obtain ⟨hT, hT'⟩ | ⟨hRH, hRH'⟩ := h
    · exact ⟨_, tempFx_congr hw ▸ hT.convertsTo, hT'.convertsTo⟩
    · exact ⟨_, humidityFx_congr hw ▸ hRH.convertsTo, hRH'.convertsTo⟩
  obtain ⟨t, hrun, hres1, hres0⟩ := hto
  obtain ⟨t', hrun', hres1', hres0'⟩ := hto'
  exact ⟨t, t', hrun, hrun', hres0'.trans hres0.symm, hres1'.trans hres1.symm⟩

/-! ### The exact value (R131) -/

/-- 6,553,600 is `100 * 2^16`: the numerator is the exact temperature without fractions. -/
theorem fracToReal_tempFx (w : RawWord) :
    fracToReal ⟨tempFx w, 6553600⟩ = tempExact (w &&& 0xFFFC).toNat := by
  rw [fracToReal, tempFx, tempExact, maskRaw]
  push_cast
  ring

theorem fracToReal_humidityFx (w : RawWord) :
    fracToReal ⟨humidityFx w, 6553600⟩ = humidityExact (w &&& 0xFFFC).toNat := by
  rw [fracToReal, humidityFx, humidityExact, maskRaw]
  push_cast
  ring

/-- Settles O19: `RES0` is `rne32` of the exact value, which rounds correctly. -/
theorem conversionsAreCorrectlyRounded : Obligations.ConversionsAreCorrectlyRounded := by
  refine fun i s w => ⟨fun h => ?_, fun h => ?_⟩
  · obtain ⟨t, hrun, -, hres0⟩ := h.convertsTo
    exact ⟨t, hrun, by rw [hres0, ← fracToReal_tempFx]; exact isRne_rne32 (by norm_num)⟩
  · obtain ⟨t, hrun, -, hres0⟩ := h.convertsTo
    exact ⟨t, hrun, by rw [hres0, ← fracToReal_humidityFx]; exact isRne_rne32 (by norm_num)⟩

theorem numerator_eq (fx : Int) : (fx : ℝ) = 6553600 * fracToReal ⟨fx, 6553600⟩ := by
  rw [fracToReal]
  push_cast
  ring

/-- The ends of the humidities alone (R135). -/
theorem humidityFx_bounds (w : RawWord) : -39321600 ≤ humidityFx w ∧ humidityFx w ≤ 779828400 := by
  have := maskRaw_le w
  unfold humidityFx
  omega

/-- Settles O17: the numerator does not wrap, and it is 6,553,600 times its quotient. -/
theorem fixedPointResultIsExact : Obligations.FixedPointResultIsExact := by
  refine fun i s w => ⟨fun h => ?_, fun h => ?_⟩
  · obtain ⟨t, hrun, hres1, -⟩ := h.convertsTo
    refine ⟨t, hrun, ?_⟩
    rw [hres1, toInt_toU32 (tempFx_inRange w), numerator_eq, fracToReal_tempFx]
    exact ⟨rfl, tempFx_inRange w⟩
  · obtain ⟨t, hrun, hres1, -⟩ := h.convertsTo
    refine ⟨t, hrun, ?_⟩
    rw [hres1, toInt_toU32 (humidityFx_inRange w), numerator_eq, fracToReal_humidityFx]
    exact ⟨rfl, humidityFx_bounds w⟩

/-! ### Numerators (R135 to R139) -/

theorem maskRaw_mod_four (w : RawWord) : (maskRaw w).toNat % 4 = 0 := by
  have hmask : (maskRaw w).toNat % 2 ^ 2 = w.toNat % 2 ^ 2 &&& 0xFFFC % 2 ^ 2 := by
    rw [maskRaw, BitVec.toNat_and, Nat.and_mod_two_pow]
    rfl
  simpa using hmask

/-- What rounding needs to know of the numerator of a conversion: its range, that the two low bits
of the denominator `2^18 * 25` cancel, and that it is far from 0. -/
structure IsNumerator (fx : Int) : Prop where
  inRange : InConversionRange fx
  four_dvd : 4 ∣ fx
  far_from_zero : 10000 < |fx|

theorem isNumerator_tempFx (w : RawWord) : IsNumerator (tempFx w) where
  inRange := tempFx_inRange w
  four_dvd := by unfold tempFx; omega
  far_from_zero := by
    have := maskRaw_mod_four w
    rw [lt_abs]
    unfold tempFx
    omega

theorem isNumerator_humidityFx (w : RawWord) : IsNumerator (humidityFx w) where
  inRange := humidityFx_inRange w
  four_dvd := by unfold humidityFx; omega
  far_from_zero := by
    have := maskRaw_mod_four w
    rw [lt_abs]
    unfold humidityFx
    omega

section
variable {fx : Int} (h : IsNumerator fx)
include h

/-- Of the denominator `2^18 * 25` the factor 25 is the only obstacle: without it the value is a
multiple of `2^-16` below `2^8`. -/
theorem IsNumerator.exact_iff :
    f32Is (rne32 ⟨fx, 6553600⟩) (fracToReal ⟨fx, 6553600⟩) ↔ 25 ∣ fx := by
  obtain ⟨⟨hlo, hhi⟩, hfour, -⟩ := h
  constructor
  · exact dvd_num_of_f32Is (r := 25) (k := 18) (by norm_num) (by norm_num)
  · intro h25
    obtain ⟨z, rfl⟩ : 100 ∣ fx := by omega
    refine f32Is_rne32_of_dyadic (c := z.natAbs) (j := 133) (by norm_num) (by omega) (by norm_num) ?_
    rw [Int.natAbs_mul]
    norm_num
    ring

/-- Rounding moves the value, counted in the numerator's units, by at most `2^-16 * 6,553,600`. -/
theorem IsNumerator.near : ∃ v, f32Is (rne32 ⟨fx, 6553600⟩) v ∧ |v * 6553600 - fx| ≤ 100 := by
  obtain ⟨⟨hlo, hhi⟩, -, -⟩ := h
  have hlo' : (-307036160 : ℝ) ≤ fx := by exact_mod_cast hlo
  have hhi' : (fx : ℝ) ≤ 844492144 := by exact_mod_cast hhi
  have hq := numerator_eq fx
  have hrne : IsRne _ (rne32 ⟨fx, 6553600⟩) := isRne_rne32 (by norm_num)
  obtain ⟨v, hv, hdist⟩ := hrne.near (by rw [abs_lt]; constructor <;> linarith)
  refine ⟨v, hv, ?_⟩
  rw [abs_le] at hdist ⊢
  constructor <;> linarith

theorem IsNumerator.not_zero : ¬ f32Is (rne32 ⟨fx, 6553600⟩) 0 := by
  intro hzero
  obtain ⟨v, hv, hdist⟩ := h.near
  obtain rfl := f32Is_unique hv hzero
  have hfar : (10000 : ℝ) < |(fx : ℝ)| := by exact_mod_cast h.far_from_zero
  rw [zero_mul, zero_sub, abs_neg] at hdist
  linarith

end

theorem tempFx_dvd_iff (w : RawWord) : 25 ∣ tempFx w ↔ (maskRaw w).toNat % 100 = 80 := by
  have := maskRaw_mod_four w
  unfold tempFx
  omega

theorem humidityFx_dvd (w : RawWord) : 25 ∣ humidityFx w := by
  unfold humidityFx
  omega

/-- Settles O18: 25 divides every numerator of a humidity, and that of a temperature when
`m mod 100 = 80`. -/
theorem conversionsExactWhereStated : Obligations.ConversionsExactWhereStated := by
  refine fun i s w => ⟨fun h => ?_, fun h => ?_⟩
  · obtain ⟨t, hrun, -, hres0⟩ := h.convertsTo
    have hnum := isNumerator_humidityFx w
    rw [← fracToReal_humidityFx]
    exact ⟨t, hrun, hres0 ▸ hnum.exact_iff.2 (humidityFx_dvd w), hres0 ▸ hnum.not_zero⟩
  · obtain ⟨t, hrun, -, hres0⟩ := h.convertsTo
    have hnum := isNumerator_tempFx w
    rw [← fracToReal_tempFx]
    exact ⟨t, hrun, hres0 ▸ hnum.exact_iff.trans (tempFx_dvd_iff w), hres0 ▸ hnum.not_zero⟩

/-- Numerators of one quantity lie far more than the error of rounding apart (R137). -/
theorem IsNumerator.rne32_lt {fx fx' : Int} (h : IsNumerator fx) (h' : IsNumerator fx')
    (hgap : fx + 50000 ≤ fx') :
    ∃ x x', f32Is (rne32 ⟨fx, 6553600⟩) x ∧ f32Is (rne32 ⟨fx', 6553600⟩) x' ∧ x < x' := by
  obtain ⟨x, hx, hdist⟩ := h.near
  obtain ⟨x', hx', hdist'⟩ := h'.near
  have hgap' : (fx : ℝ) + 50000 ≤ fx' := by exact_mod_cast hgap
  rw [abs_le] at hdist hdist'
  exact ⟨x, x', hx, hx', by linarith⟩

/-- Masked words are multiples of 4. -/
theorem maskRaw_gap {w w' : RawWord} (h : (maskRaw w).toNat < (maskRaw w').toNat) :
    (maskRaw w).toNat + 4 ≤ (maskRaw w').toNat := by
  have := maskRaw_mod_four w
  have := maskRaw_mod_four w'
  omega

theorem tempFx_gap {w w' : RawWord} (h : (maskRaw w).toNat < (maskRaw w').toNat) :
    tempFx w + 50000 ≤ tempFx w' := by
  have := maskRaw_gap h
  unfold tempFx
  omega

theorem humidityFx_gap {w w' : RawWord} (h : (maskRaw w).toNat < (maskRaw w').toNat) :
    humidityFx w + 50000 ≤ humidityFx w' := by
  have := maskRaw_gap h
  unfold humidityFx
  omega

/-- Settles O20: neighbouring masked words have numerators 50000 apart or more, and rounding moves a
numerator by at most 100. -/
theorem conversionsStrictlyIncrease : Obligations.ConversionsStrictlyIncrease := by
  intro i i' s s' w w' hw h
  obtain ⟨fx, fx', hto, hto', hnum, hnum', hgap⟩ : ∃ fx fx', ConvertsTo i s fx ∧
      ConvertsTo i' s' fx' ∧ IsNumerator fx ∧ IsNumerator fx' ∧ fx + 50000 ≤ fx' := by
    obtain ⟨hT, hT'⟩ | ⟨hRH, hRH'⟩ := h
    · exact ⟨_, _, hT.convertsTo, hT'.convertsTo, isNumerator_tempFx w, isNumerator_tempFx w',
        tempFx_gap hw⟩
    · exact ⟨_, _, hRH.convertsTo, hRH'.convertsTo, isNumerator_humidityFx w,
        isNumerator_humidityFx w', humidityFx_gap hw⟩
  obtain ⟨t, hrun, hres1, hres0⟩ := hto
  obtain ⟨t', hrun', hres1', hres0'⟩ := hto'
  obtain ⟨x, x', hx, hx', hlt⟩ := hnum.rne32_lt hnum' hgap
  refine ⟨t, t', x, x', hrun, hrun', ?_, hres0 ▸ hx, hres0' ▸ hx', hlt⟩
  rw [hres1, hres1', toInt_toU32 hnum.inRange, toInt_toU32 hnum'.inRange]
  omega

end Sys2Proof.Machine
end

section
/-! PROOFS. Compensated humidity (R160 to R162): a finite pattern other than the two zeros is the
correctly rounded pattern of its own value (R9, R10); from this and from the correctness of `rne32`,
what `COMP_RH` writes. -/

namespace Sys2Proof.Machine

/-! ### Finite patterns and their values (R9) -/

theorem f32Exp_eq (b : Word) : f32Exp b = b.toNat % 2 ^ 31 / 2 ^ 23 := by
  rw [f32Exp, BitVec.extractLsb'_toNat, Nat.shiftRight_eq_div_pow]
  omega

theorem f32IsFinite_of_f32val {b : Word} {u : Int} (h : f32val b = .finite u) :
    f32IsFinite b = true := by
  by_contra hb
  have hexp : f32Exp b = 255 := by simpa [f32IsFinite] using hb
  rw [f32val, if_pos hexp] at h
  split at h <;> cases h

theorem exists_f32val_of_f32IsFinite {b : Word} (h : f32IsFinite b = true) :
    ∃ u, f32val b = .finite u := by
  have hexp : f32Exp b ≠ 255 := by simpa [f32IsFinite] using h
  exact ⟨_, by rw [f32val, if_neg hexp]⟩

/-- Commands that take two binary32 operands meet this where one of them is not finite. -/
theorem not_exists_f32val_of_nonfinite {a b : Word}
    (h : f32IsFinite a = false ∨ f32IsFinite b = false) :
    ¬ ∃ t u, f32val a = .finite t ∧ f32val b = .finite u := by
  rintro ⟨t, u, ht, hu⟩
  simp [f32IsFinite_of_f32val ht, f32IsFinite_of_f32val hu] at h

theorem realOfUnits_le_zero_iff {u : Int} : realOfUnits u ≤ 0 ↔ u ≤ 0 := by
  rw [realOfUnits, div_le_iff₀ (by positivity), zero_mul, Int.cast_nonpos]

theorem realOfUnits_pos_iff {u : Int} : 0 < realOfUnits u ↔ 0 < u := by
  rw [← not_le, realOfUnits_le_zero_iff, not_le]

/-- A pattern with a value lies below infinity's, and the value is its magnitude's, with its sign. -/
theorem f32Is.eq_magnitudeValue {b : Word} {x : ℝ} (h : f32Is b x) :
    b.toNat % 2 ^ 31 < 0x7F800000 ∧
    x = if f32Sign b then -magnitudeValue (b.toNat % 2 ^ 31)
        else magnitudeValue (b.toNat % 2 ^ 31) := by
  obtain ⟨u, hu, -⟩ := id h
  have hexp : f32Exp b ≠ 255 := by simpa [f32IsFinite] using f32IsFinite_of_f32val hu
  have hlt : b.toNat % 2 ^ 31 < 0x7F800000 := by rw [f32Exp_eq] at hexp; omega
  have hvalue := f32Is_signedPattern (f32Sign b) hlt
  rw [signedPattern_sign_magnitude] at hvalue
  exact ⟨hlt, f32Is_unique h hvalue⟩

theorem magnitudeValue_zero : magnitudeValue 0 = 0 := by
  simp [magnitudeValue, f32Units, realOfUnits]

theorem magnitudeValue_nonneg (m : Nat) : 0 ≤ magnitudeValue m :=
  magnitudeValue_zero ▸ magnitudeValue_strictMono.monotone (Nat.zero_le m)

theorem f32Is.magnitudeValue_eq_abs {b : Word} {x : ℝ} (h : f32Is b x) :
    magnitudeValue (b.toNat % 2 ^ 31) = |x| := by
  have hnonneg := magnitudeValue_nonneg (b.toNat % 2 ^ 31)
  rw [h.eq_magnitudeValue.2]
  split
  · rw [abs_neg, abs_of_nonneg hnonneg]
  · rw [abs_of_nonneg hnonneg]

/-- The patterns of the value 0 are the two zeros. -/
theorem f32Is.eq_zero {b : Word} (h : f32Is b 0) : b = 0 ∨ b = 0x80000000 := by
  have hm : b.toNat % 2 ^ 31 = 0 := magnitudeValue_strictMono.injective <| by
    rw [h.magnitudeValue_eq_abs, abs_zero, magnitudeValue_zero]
  have := b.isLt
  rcases (by omega : b.toNat = 0 ∨ b.toNat = 2 ^ 31) with h0 | h0
  · exact .inl (BitVec.eq_of_toNat_eq h0)
  · exact .inr (BitVec.eq_of_toNat_eq h0)

/-- A value other than 0 that has a pattern is rounded to that pattern (R10). -/
theorem f32Is.isRne {b : Word} {x : ℝ} (h : f32Is b x) (hx : x ≠ 0) : IsRne x b := by
  obtain ⟨hlt, hvalue⟩ := h.eq_magnitudeValue
  have habs := h.magnitudeValue_eq_abs
  refine isRne_of_exact hx ?_ hlt.le habs
  rw [habs] at hvalue
  cases hsign : f32Sign b
  · have hpos : x = |x| := by simpa [hsign] using hvalue
    simpa using hpos ▸ abs_nonneg x
  · have hneg : x = -|x| := by simpa [hsign] using hvalue
    have := abs_pos.2 hx
    simp only [true_iff]
    linarith

/-- A value other than 0 has one pattern. -/
theorem eq_of_f32val_eq {a b : Word} {u : Int} (hu : u ≠ 0) (ha : f32val a = .finite u)
    (hb : f32val b = .finite u) : a = b := by
  have hx : realOfUnits u ≠ 0 := by rw [realOfUnits]; positivity
  exact (f32Is.isRne ⟨u, ha, rfl⟩ hx).unique (f32Is.isRne ⟨u, hb, rfl⟩ hx)

/-- The value of a pattern is rounded to that pattern, but that of `-0` to `+0`. -/
theorem IsRne.eq_of_f32Is {b r : Word} {x : ℝ} (hr : IsRne x r) (hb : f32Is b x) :
    r = if b = 0x80000000 then 0 else b := by
  by_cases hx : x = 0
  · subst hx
    rw [hr.1 rfl]
    obtain rfl | rfl := hb.eq_zero <;> decide
  · rw [if_neg, hr.unique (hb.isRne hx)]
    rintro rfl
    exact hx (f32Is_unique hb ⟨0, by decide, by simp [realOfUnits]⟩)

/-! ### `COMP_RH` -/

theorem fracToReal_compFrac (t h : Int) :
    fracToReal (compFrac t h) = compExact (realOfUnits t) (realOfUnits h) := by
  simp only [compFrac, fracOfUnits, Frac.add, Frac.mul, Frac.sub, Frac.ofInt, fracToReal, compExact,
    realOfUnits]
  push_cast
  field_simp
  ring

theorem compFrac_den_pos (t h : Int) : 0 < (compFrac t h).den := by
  simp only [compFrac, fracOfUnits, Frac.add, Frac.mul, Frac.sub, Frac.ofInt]
  positivity

theorem isRne_compFrac (t h : Int) :
    IsRne (compExact (realOfUnits t) (realOfUnits h)) (rne32 (compFrac t h)) := by
  rw [← fracToReal_compFrac]
  exact isRne_rne32 (compFrac_den_pos t h)

theorem exec_compRh_finite {s : State} {t h : Int} (ht : f32val s.arg0 = .finite t)
    (hh : f32val s.arg1 = .finite h) :
    exec .compRh s = .next { s with res0 := rne32 (compFrac t h), code := 0 } := by
  rw [exec, execCompRh_finite ht hh, report_ok]

theorem exec_compRh_nonfinite {s : State}
    (hs : f32IsFinite s.arg0 = false ∨ f32IsFinite s.arg1 = false) :
    exec .compRh s = .next { s with res0 := 0x7FC00000, code := 3, sticky := true } := by
  rw [exec, execCompRh_nonfinite (not_exists_f32val_of_nonfinite hs), domainError_eq, qnan]

/-- Settles O24: its two clauses are the two lemmas on `COMP_RH`. -/
theorem compRhCompletes : Obligations.CompRhCompletes :=
  fun _ => ⟨fun _ _ => exec_compRh_finite, exec_compRh_nonfinite⟩

/-- Settles O25: the fraction that is rounded is the formula's value, and `rne32` rounds it
correctly. -/
theorem compRhFollowsTheFormula : Obligations.CompRhFollowsTheFormula :=
  ⟨decode_encode .compRh, fun _ =>
    ⟨fun t h ht hh => ⟨_, isRne_compFrac t h, exec_compRh_finite ht hh⟩, exec_compRh_nonfinite⟩⟩

/-- At `T = 25` the formula gives `RH` (R162). -/
theorem compExact_twentyFive (RH : ℝ) : compExact 25 RH = RH := by
  rw [compExact, sub_self, zero_mul, add_zero]

/-- Settles O26: at `T = 25` the exact value is that of the pattern in `ARG1`, which is rounded to
itself unless it is `-0`. -/
theorem compRhAt25IsTheHumidity : Obligations.CompRhAt25IsTheHumidity := by
  intro s h hT hh
  have ht : f32val s.arg0 = .finite (25 * 2 ^ 149) := by rw [hT]; decide
  have hrne := isRne_compFrac (25 * 2 ^ 149) h
  rw [show realOfUnits (25 * 2 ^ 149) = 25 by norm_num [realOfUnits], compExact_twentyFive] at hrne
  rw [exec_compRh_finite ht hh, hrne.eq_of_f32Is ⟨h, hh, rfl⟩]

end Sys2Proof.Machine
end

section
/-! PROOFS. The exact dew point (R170, R171, R176): its closed form, in which the denominator
decides, how it grows in the rated range, and its range there, to which it is correctly rounded
within `2^-17` (R175). -/

namespace Sys2Proof.Machine

/-! ### The closed form (R171) -/

/-- The denominator of the closed form. -/
noncomputable def dewDenominator (T RH : ℝ) : ℝ := dewB / (T + dewC) - log10 (RH / 100)

theorem dewB_pos : 0 < dewB := by norm_num [dewB]

theorem dewExact_eq {T RH : ℝ} (hRH : 0 < RH) :
    dewExact T RH = dewB / dewDenominator T RH - dewC := by
  rw [dewExact, log10_partialPressure T RH hRH, ← neg_sub (dewB / (T + dewC)), ← dewDenominator,
    div_neg]
  ring

/-- At `RH = 100` the logarithm is 0, and the dew point is the temperature.  At `T = -C`, where R170
defines none, the total function of the reals gives it too. -/
theorem dewExact_hundred (T : ℝ) : dewExact T 100 = T := by
  have hlog : log10 (100 / 100) = 0 := by norm_num [log10]
  rw [dewExact_eq (by norm_num), dewDenominator, hlog, sub_zero, div_div_cancel₀ dewB_pos.ne',
    add_sub_cancel_right]

/-- Settles O31: the closed form, and its value at `RH = 100`. -/
theorem dewPointClosedForm : Obligations.DewPointClosedForm :=
  ⟨fun _ _ _ hRH _ => dewExact_eq hRH, fun T _ => dewExact_hundred T⟩

/-! ### The laws of the rated range (R176) -/

theorem Rated.add_dewC_pos {T RH : ℝ} (hr : Rated T RH) : 0 < T + dewC := by
  obtain ⟨hT, -⟩ := hr
  rw [dewC]
  linarith

theorem Rated.humidity_pos {T RH : ℝ} (hr : Rated T RH) : 0 < RH := by
  obtain ⟨-, -, hRH, -⟩ := hr
  linarith

theorem log10_hundredth_lt {x y : ℝ} (hx : 0 < x) (hxy : x < y) :
    log10 (x / 100) < log10 (y / 100) :=
  Real.logb_lt_logb (by norm_num) (by positivity) (by linarith)

theorem dewDenominator_lt_of_temp_lt {T T' : ℝ} (RH : ℝ) (hT : 0 < T + dewC) (h : T < T') :
    dewDenominator T' RH < dewDenominator T RH :=
  sub_lt_sub_right (div_lt_div_of_pos_left dewB_pos hT (by linarith)) _

theorem dewDenominator_lt_of_humidity_lt (T : ℝ) {RH RH' : ℝ} (hRH : 0 < RH) (h : RH < RH') :
    dewDenominator T RH' < dewDenominator T RH :=
  sub_lt_sub_left (log10_hundredth_lt hRH h) _

/-- The denominator is least at the upper ends of the rated range. -/
theorem dewDenominator_least {T RH : ℝ} (hr : Rated T RH) :
    dewDenominator 130 125 ≤ dewDenominator T RH := by
  have ⟨_, hT, _, hRH⟩ := hr
  have hRHpos := hr.humidity_pos
  have hquot : dewB / (130 + dewC) ≤ dewB / (T + dewC) :=
    div_le_div_of_nonneg_left dewB_pos.le hr.add_dewC_pos (by linarith)
  have hlog : log10 (RH / 100) ≤ log10 (125 / 100) :=
    Real.logb_le_logb_of_le (by norm_num) (by positivity) (by linarith)
  exact sub_le_sub hquot hlog

theorem lt_dewDenominator_least : 47 / 10 < dewDenominator 130 125 := by
  obtain ⟨-, hlog⟩ := log10_rated (RH := 125) (by norm_num) le_rfl
  have hquot : 48 / 10 < dewB / (130 + dewC) := by norm_num [dewB, dewC]
  rw [dewDenominator]
  linarith

theorem Rated.dewDenominator_pos {T RH : ℝ} (hr : Rated T RH) : 0 < dewDenominator T RH := by
  linarith [lt_dewDenominator_least, dewDenominator_least hr]

/-- The less the denominator, the higher the dew point. -/
theorem dewExact_lt_of_dewDenominator_lt {T RH T' RH' : ℝ} (hr : Rated T RH) (hr' : Rated T' RH')
    (h : dewDenominator T' RH' < dewDenominator T RH) : dewExact T RH < dewExact T' RH' := by
  rw [dewExact_eq hr.humidity_pos, dewExact_eq hr'.humidity_pos]
  exact sub_lt_sub_right (div_lt_div_of_pos_left dewB_pos hr'.dewDenominator_pos h) _

theorem dewExact_lt_of_temp_lt {T T' RH : ℝ} (hr : Rated T RH) (hr' : Rated T' RH) (h : T < T') :
    dewExact T RH < dewExact T' RH :=
  dewExact_lt_of_dewDenominator_lt hr hr' (dewDenominator_lt_of_temp_lt RH hr.add_dewC_pos h)

theorem dewExact_lt_of_humidity_lt {T RH RH' : ℝ} (hr : Rated T RH) (hr' : Rated T RH')
    (h : RH < RH') : dewExact T RH < dewExact T RH' :=
  dewExact_lt_of_dewDenominator_lt hr hr' (dewDenominator_lt_of_humidity_lt T hr.humidity_pos h)

/-- The dew point against the temperature is the humidity against 100. -/
theorem dewExact_compare {T RH : ℝ} (hr : Rated T RH) :
    (RH < 100 → dewExact T RH < T) ∧ (RH = 100 → dewExact T RH = T) ∧
    (100 < RH → T < dewExact T RH) := by
  have ⟨hlo, hhi, _⟩ := hr
  have hr100 : Rated T 100 := ⟨hlo, hhi, by norm_num, by norm_num⟩
  have h100 : dewExact T 100 = T := dewExact_hundred T
  refine ⟨fun h => ?_, fun h => h ▸ h100, fun h => ?_⟩
  · exact (dewExact_lt_of_humidity_lt hr hr100 h).trans_eq h100
  · exact h100.symm.trans_lt (dewExact_lt_of_humidity_lt hr100 hr h)

/-! ### The range of the dew point and its rounding (R175) -/

/-- A bound of `log10 1.25` that is as sharp as the upper end of the range needs. -/
theorem log10_five_fourths_le : log10 (125 / 100) ≤ 16 / 165 := by
  rw [log10, Real.logb_le_iff_le_rpow (by norm_num) (by norm_num)]
  refine le_of_pow_le_pow_left₀ (n := 165) (by norm_num) (by positivity) ?_
  rw [← Real.rpow_mul_natCast (by norm_num)]
  norm_num

theorem dewExact_range {T RH : ℝ} (hr : Rated T RH) :
    -(10505 / 100) ≤ dewExact T RH ∧ dewExact T RH ≤ 13751 / 100 := by
  have ⟨hT, _, hRHlo, hRHhi⟩ := hr
  constructor
  · rw [le_dewExact_iff hr (by norm_num [dewC])]
    have hquot : dewB / (T + dewC) ≤ dewB / (-50 + dewC) :=
      div_le_div_of_nonneg_left dewB_pos.le (by norm_num [dewC]) (by linarith)
    have hends : dewB / (-50 + dewC) - dewB / (-(10505 / 100) + dewC) ≤ -4 := by
      norm_num [dewB, dewC]
    obtain ⟨hlog, -⟩ := log10_rated hRHlo hRHhi
    linarith
  · have hleast : dewB / (13751 / 100 + dewC) ≤ dewDenominator 130 125 := by
      have hends : dewB / (13751 / 100 + dewC) ≤ dewB / (130 + dewC) - 16 / 165 := by
        norm_num [dewB, dewC]
      rw [dewDenominator]
      linarith [log10_five_fourths_le]
    rw [dewExact_eq hr.humidity_pos, sub_le_iff_le_add,
      div_le_comm₀ hr.dewDenominator_pos (by norm_num [dewC])]
    exact hleast.trans (dewDenominator_least hr)

/-- A significand over `2^16` is the value of a magnitude. -/
theorem exists_magnitudeValue_eq_div {c : Nat} (hc : c < 2 ^ 24) :
    ∃ m ≤ 0x7F800000, magnitudeValue m = (c : ℝ) / 2 ^ 16 := by
  obtain ⟨e, f, he, hf, hunits⟩ := exists_f32Units c 133 hc (by norm_num)
  refine ⟨e * 2 ^ 23 + f, by omega, ?_⟩
  rw [magnitudeValue_eq, magnitudeUnits, show (e * 2 ^ 23 + f) / 2 ^ 23 = e by omega,
    show (e * 2 ^ 23 + f) % 2 ^ 23 = f by omega, hunits]
  push_cast
  ring

/-- Below 255 some magnitude is within `2^-17`: half the spacing from 128 to 256. -/
theorem exists_magnitudeValue_within_half {y : ℝ} (h0 : 0 ≤ y) (hy : y < 255) :
    ∃ m ≤ 0x7F800000, |magnitudeValue m - y| ≤ 1 / 2 ^ 17 := by
  have hscaled : 0 ≤ y * 2 ^ 16 + 1 / 2 := by positivity
  have hlo := Nat.floor_le hscaled
  have hhi := Nat.lt_floor_add_one (y * 2 ^ 16 + 1 / 2)
  obtain ⟨m, hm, hvalue⟩ := exists_magnitudeValue_eq_div
    ((Nat.floor_lt hscaled).2 (by norm_num; linarith) : ⌊y * 2 ^ 16 + 1 / 2⌋₊ < 2 ^ 24)
  refine ⟨m, hm, ?_⟩
  rw [hvalue, abs_le]
  constructor <;> linarith

/-- The error of a rounded value is that of its magnitude. -/
theorem IsRne.abs_sub_eq {x v : ℝ} {b : Word} (h : IsRne x b) (hv : f32Is b v) (hx : x ≠ 0) :
    |v - x| = |magnitudeValue (b.toNat % 2 ^ 31) - abs x| := by
  obtain ⟨hsign, -⟩ := (isRne_iff_of_ne_zero hx b).1 h
  rw [hv.eq_magnitudeValue.2]
  by_cases hneg : x < 0
  · rw [if_pos (hsign.2 hneg), abs_of_neg hneg, ← abs_neg, neg_sub', neg_neg]
  · rw [if_neg (mt hsign.1 hneg), abs_of_nonneg (not_lt.1 hneg)]

/-- A number below 255 is rounded to a finite value that is at most `2^-17` away. -/
theorem IsRne.within_half {x : ℝ} {b : Word} (h : IsRne x b) (hx : |x| < 255) :
    ∃ v, f32Is b v ∧ |v - x| ≤ 1 / 2 ^ 17 := by
  obtain ⟨v, hv, -⟩ := h.near (by linarith)
  refine ⟨v, hv, ?_⟩
  by_cases h0 : x = 0
  · subst h0
    rw [h.1 rfl] at hv
    norm_num [f32Is_unique hv f32Is_zero]
  · obtain ⟨m, hm, hnear⟩ := exists_magnitudeValue_within_half (abs_nonneg x) hx
    obtain ⟨-, hnearest⟩ := (isRne_iff_of_ne_zero h0 b).1 h
    rw [h.abs_sub_eq hv h0]
    exact (hnearest.dist_le hm).trans hnear

theorem isRne_dewExact_near {T RH : ℝ} {r : Word} (hr : Rated T RH) (h : IsRne (dewExact T RH) r) :
    ∃ d : Int, f32val r = .finite d ∧ |realOfUnits d - dewExact T RH| ≤ 1 / 2 ^ 17 := by
  obtain ⟨hlo, hhi⟩ := dewExact_range hr
  obtain ⟨_, ⟨d, hd, rfl⟩, hnear⟩ := h.within_half (abs_lt.2 ⟨by linarith, by linarith⟩)
  exact ⟨d, hd, hnear⟩

theorem isRne_dpRef {a b : Word} {t h : Int} (ha : f32val a = .finite t)
    (hb : f32val b = .finite h) :
    IsRne (dewExact (realOfUnits t) (realOfUnits h)) (dpRef a b) := by
  simp only [dpRef, ha, hb]
  exact isRne_roundReal _

/-- Settles O33: `dp_ref` is correctly rounded, and in the rated range a correctly rounded dew point
is within `2^-17`. -/
theorem referenceDewPointConforms : Obligations.ReferenceDewPointConforms := by
  refine ⟨fun _ _ _ _ => isRne_dpRef, fun _ _ => dewExact_range, fun _ _ _ => isRne_dewExact_near,
    fun tol htol a b t h ha hb hr => ?_⟩
  obtain ⟨d, hd, hnear⟩ := isRne_dewExact_near hr (isRne_dpRef ha hb)
  exact ⟨d, hd, hnear.trans htol⟩

end Sys2Proof.Machine
end

section
/-! PROOFS. The dew-point command (R172 to R174, R176): the powers of ten that binary32 has, so that
the denominator of the dew-point formula is 0 for one pair of operands only; hence where `DEWPT`
reports DOMAIN, and what it gives in the rated range. -/

namespace Sys2Proof.Machine

/-! ### Rational logarithms and powers of ten (R174) -/

theorem padicValRat_five_ten : padicValRat 5 10 = 1 := by
  have : Fact (Nat.Prime 5) := ⟨by norm_num⟩
  have hnat : padicValNat 5 (5 * 2) = 1 := by
    rw [padicValNat.mul (by norm_num) (by norm_num), padicValNat_self,
      padicValNat.eq_zero_of_not_dvd (by norm_num)]
  exact_mod_cast hnat ▸ padicValRat.of_nat (p := 5) (n := 5 * 2)

/-- A rational number whose logarithm is rational is a whole power of ten: the exponent of 5 in it
is that logarithm. -/
theorem exists_eq_zpow_of_log10_eq {x q : ℚ} (hx : 0 < x) (h : log10 x = q) :
    ∃ k : ℤ, q = k ∧ x = 10 ^ k := by
  have hprime : Fact (Nat.Prime 5) := ⟨by norm_num⟩
  have hrpow : (10 : ℝ) ^ (q : ℝ) = x := by
    rw [← h]
    exact Real.rpow_logb (by norm_num) (by norm_num) (by exact_mod_cast hx)
  have hpow : x ^ q.den = 10 ^ q.num := by
    have hexp : (q : ℝ) * q.den = q.num := by exact_mod_cast Rat.mul_den_eq_num q
    apply Rat.cast_injective (α := ℝ)
    push_cast
    rw [← hrpow, ← Real.rpow_mul_natCast (by norm_num), hexp, Real.rpow_intCast]
  have hval : (q.den : ℤ) * padicValRat 5 x = q.num := by
    simpa [padicValRat_five_ten] using congrArg (padicValRat 5) hpow
  have hq : q = padicValRat 5 x := by
    have hcast : (q.den : ℚ) * padicValRat 5 x = q.num := by exact_mod_cast hval
    rw [← Rat.mul_den_eq_num q, mul_comm] at hcast
    exact (mul_right_cancel₀ (by exact_mod_cast q.den_nz) hcast).symm
  refine ⟨_, hq, ?_⟩
  rw [hq, Rat.cast_intCast, Real.rpow_intCast] at hrpow
  apply Rat.cast_injective (α := ℝ)
  push_cast
  exact hrpow.symm

/-- A finite value is a significand below `2^24` times a power of two, in units of `2^-149` (R9). -/
theorem exists_significand {b : Word} {u : Int} (h : f32val b = .finite u) :
    ∃ c j : Nat, c < 2 ^ 24 ∧ u.natAbs = c * 2 ^ j := by
  have hfrac : f32Frac b < 2 ^ 23 := (b.extractLsb' 0 23).isLt
  have hunits : u.natAbs = f32Units (f32Exp b) (f32Frac b) := by
    rw [f32val, if_neg (by simpa [f32IsFinite] using f32IsFinite_of_f32val h),
      F32.finite.injEq] at h
    rw [← h]
    split <;> simp
  rw [hunits, f32Units]
  split
  · exact ⟨_, 0, by omega, (mul_one _).symm⟩
  · exact ⟨_, _, by omega, rfl⟩

/-- Five to the exponent divides the significand, which is below `5^11`. -/
theorem ten_pow_exponent_le {b : Word} {u : Int} {n : Nat} (hb : f32val b = .finite u)
    (hu : u = 10 ^ n * 2 ^ 149) : n ≤ 10 := by
  obtain ⟨c, j, hc, hcj⟩ := exists_significand hb
  have hnat : c * 2 ^ j = 5 ^ n * (2 ^ n * 2 ^ 149) := by
    rw [← hcj, hu, Int.natAbs_mul, Int.natAbs_pow, Int.natAbs_pow, ← mul_assoc, ← mul_pow]
    rfl
  have hdvd : 5 ^ n ∣ c :=
    (Nat.Coprime.pow n j (by norm_num : Nat.Coprime 5 2)).dvd_of_dvd_mul_right ⟨_, hnat⟩
  have hc0 : 0 < c := by
    rcases Nat.eq_zero_or_pos c with rfl | hpos
    · exact absurd hnat (by rw [zero_mul]; positivity)
    · exact hpos
  have hlt : 5 ^ n < 5 ^ 11 := (Nat.le_of_dvd hc0 hdvd).trans_lt (hc.trans (by norm_num))
  exact Nat.lt_succ_iff.1 ((Nat.pow_lt_pow_iff_right (by norm_num)).1 hlt)

/-- The powers of ten that binary32 has are at most `10^0` to `10^10`: a negative exponent would
make five a divisor of a power of two. -/
theorem ten_zpow_exponent_range {b : Word} {u : Int} {k : ℤ} (hb : f32val b = .finite u)
    (hk : realOfUnits u = 10 ^ k) : 0 ≤ k ∧ k ≤ 10 := by
  rw [realOfUnits, div_eq_iff (by positivity)] at hk
  cases k with
  | ofNat n =>
    rw [Int.ofNat_eq_natCast, zpow_natCast] at hk
    have hn := ten_pow_exponent_le hb (n := n) (by exact_mod_cast hk)
    exact ⟨Int.natCast_nonneg n, Int.ofNat_le.2 hn⟩
  | negSucc n =>
    rw [zpow_negSucc, ← div_eq_inv_mul, eq_div_iff (by positivity)] at hk
    have hu : u * 10 ^ (n + 1) = 2 ^ 149 := by exact_mod_cast hk
    have hdvd : (5 : Int) ∣ 2 ^ 149 := ⟨u * (2 * 10 ^ n), by rw [← hu]; ring⟩
    exact absurd hdvd (by norm_num)

/-! ### The zero denominator (R174) -/

/-- `T + C` is not 0: 25 is no divisor of the second term. -/
theorem units_add_dewC_ne_zero (t : Int) : 100 * t + 23566 * 2 ^ 149 ≠ 0 := by omega

theorem realOfUnits_add_dewC (t : Int) :
    realOfUnits t + dewC = ((100 * t + 23566 * 2 ^ 149 : Int) : ℝ) / (100 * 2 ^ 149) := by
  rw [realOfUnits, dewC]
  push_cast
  field_simp
  ring

theorem realOfUnits_add_dewC_ne_zero (t : Int) : realOfUnits t + dewC ≠ 0 := by
  rw [realOfUnits_add_dewC]
  have : ((100 * t + 23566 * 2 ^ 149 : Int) : ℝ) ≠ 0 := by
    exact_mod_cast units_add_dewC_ne_zero t
  positivity

theorem tempIsMinusC_eq_false (t : Int) : tempIsMinusC t = false := by
  have := units_add_dewC_ne_zero t
  rw [tempIsMinusC, beq_eq_false_iff_ne]
  simp only [fracOfUnits, Frac.add]
  omega

/-- The quotient is rational, so a logarithm that equals it makes both a whole number. -/
theorem exists_exponent_of_log10_eq {t h : Int} (hpos : 0 < h)
    (heq : log10 (realOfUnits h / 100) = dewB / (realOfUnits t + dewC)) :
    ∃ k : ℤ, k * (100 * t + 23566 * 2 ^ 149) = 176239 * 2 ^ 149 ∧
      realOfUnits h = 10 ^ (k + 2) := by
  have hcast : (((h : ℚ) / 2 ^ 149 / 100 : ℚ) : ℝ) = realOfUnits h / 100 := by
    push_cast [realOfUnits]
    rfl
  have hlog : log10 ((h : ℚ) / 2 ^ 149 / 100 : ℚ) =
      (176239 * 2 ^ 149 / (100 * t + 23566 * 2 ^ 149 : Int) : ℚ) := by
    rw [hcast, heq, realOfUnits_add_dewC, dewB]
    push_cast
    field_simp
  obtain ⟨k, hq, hx⟩ := exists_eq_zpow_of_log10_eq (by positivity) hlog
  refine ⟨k, ?_, ?_⟩
  · have hne : ((100 * t + 23566 * 2 ^ 149 : Int) : ℚ) ≠ 0 := by
      exact_mod_cast units_add_dewC_ne_zero t
    rw [div_eq_iff hne] at hq
    exact_mod_cast hq.symm
  · have hreal : (h : ℝ) / 2 ^ 149 / 100 = 10 ^ k := by
      simpa using congrArg (Rat.cast (K := ℝ)) hx
    rw [realOfUnits, zpow_add₀ (by norm_num), ← hreal]
    norm_num

/-- The only such whole number for which `T` is a binary32 value is 4. -/
theorem eq_four_of_exponent {t k : Int} (hlo : 0 ≤ k + 2) (hhi : k + 2 ≤ 10)
    (h : k * (100 * t + 23566 * 2 ^ 149) = 176239 * 2 ^ 149) : k = 4 := by
  have hk1 : -2 ≤ k := by omega
  have hk2 : k ≤ 8 := by omega
  interval_cases k <;> omega

/-- The denominator is 0 for the one pair of operands alone (R174). -/
theorem log10_eq_iff_pair {a b : Word} {t h : Int} (ha : f32val a = .finite t)
    (hb : f32val b = .finite h) (hpos : 0 < h) :
    log10 (realOfUnits h / 100) = dewB / (realOfUnits t + dewC) ↔
      a = 0x434CF000 ∧ b = 0x49742400 := by
  have hpa : f32val 0x434CF000 = .finite (3279 * 2 ^ 145) := by decide
  have hpb : f32val 0x49742400 = .finite (1000000 * 2 ^ 149) := by decide
  constructor
  · intro heq
    obtain ⟨k, hunits, hpow⟩ := exists_exponent_of_log10_eq hpos heq
    obtain ⟨hlo, hhi⟩ := ten_zpow_exponent_range hb hpow
    obtain rfl := eq_four_of_exponent hlo hhi hunits
    have ht : t = 3279 * 2 ^ 145 := by omega
    have hh : h = 1000000 * 2 ^ 149 := by
      rw [realOfUnits, div_eq_iff (by positivity)] at hpow
      norm_num at hpow
      exact_mod_cast hpow
    subst ht hh
    exact ⟨eq_of_f32val_eq (by norm_num) ha hpa, eq_of_f32val_eq (by norm_num) hb hpb⟩
  · rintro ⟨rfl, rfl⟩
    obtain rfl : 3279 * 2 ^ 145 = t := by rwa [hpa, F32.finite.injEq] at ha
    obtain rfl : 1000000 * 2 ^ 149 = h := by rwa [hpb, F32.finite.injEq] at hb
    have hRH : realOfUnits (1000000 * 2 ^ 149) / 100 = 10 ^ 4 := by norm_num [realOfUnits]
    have hT : dewB / (realOfUnits (3279 * 2 ^ 145) + dewC) = 4 := by
      norm_num [realOfUnits, dewB, dewC]
    rw [hRH, hT, log10, Real.logb_pow, Real.logb_self_eq_one (by norm_num)]
    norm_num

/-! ### Where `DEWPT` reports DOMAIN (R173) -/

theorem dewUndefined_iff {a b : Word} {t h : Int} :
    dewUndefined a b t h = true ↔ h ≤ 0 ∨ (a = 0x434CF000 ∧ b = 0x49742400) := by
  simp [dewUndefined, dewDenominatorZero, tempIsMinusC_eq_false]

theorem exec_dewpt_nonfinite {s : State}
    (hs : f32IsFinite s.arg0 = false ∨ f32IsFinite s.arg1 = false) :
    exec .dewpt s = .next { s with res0 := 0x7FC00000, code := 3, sticky := true } := by
  rw [exec, execDewpt_nonfinite (not_exists_f32val_of_nonfinite hs), domainError_eq, qnan]

section
variable {s : State} {t h : Int} (ht : f32val s.arg0 = .finite t) (hh : f32val s.arg1 = .finite h)
include ht hh

theorem exec_dewpt_undefined
    (hdom : h ≤ 0 ∨ (s.arg0 = 0x434CF000 ∧ s.arg1 = 0x49742400)) :
    exec .dewpt s = .next { s with res0 := 0x7FC00000, code := 3, sticky := true } := by
  rw [exec, execDewpt_finite ht hh, if_pos (dewUndefined_iff.2 hdom), domainError_eq, qnan]

theorem exec_dewpt_defined (hpos : 0 < h)
    (hpair : ¬ (s.arg0 = 0x434CF000 ∧ s.arg1 = 0x49742400)) :
    exec .dewpt s =
      .next { s with res0 := Config.dpImpl s.dewUnit s.arg0 s.arg1, code := 0 } := by
  have hdom : ¬ dewUndefined s.arg0 s.arg1 t h = true := by
    rw [dewUndefined_iff, not_or]
    exact ⟨hpos.not_ge, hpair⟩
  rw [exec, execDewpt_finite ht hh, if_neg hdom, report_ok]

/-- The real-number condition of R173 is the model's test. -/
theorem dew_condition_iff :
    (realOfUnits h ≤ 0 ∨ realOfUnits t + dewC = 0 ∨
      log10 (realOfUnits h / 100) = dewB / (realOfUnits t + dewC)) ↔
    h ≤ 0 ∨ (s.arg0 = 0x434CF000 ∧ s.arg1 = 0x49742400) := by
  rw [realOfUnits_le_zero_iff, or_iff_right (realOfUnits_add_dewC_ne_zero t)]
  by_cases hpos : 0 < h
  · rw [log10_eq_iff_pair ht hh hpos]
  · simp [not_lt.1 hpos]

end

/-- Settles O27: the finite operands are told apart by the model's own test. -/
theorem dewptCompletes : Obligations.DewptCompletes := by
  refine fun s => ⟨fun t h => exec_dewpt_defined, fun hdom => ?_⟩
  cases hfin0 : f32IsFinite s.arg0
  · exact exec_dewpt_nonfinite (.inl hfin0)
  cases hfin1 : f32IsFinite s.arg1
  · exact exec_dewpt_nonfinite (.inr hfin1)
  obtain ⟨t, ht⟩ := exists_f32val_of_f32IsFinite hfin0
  obtain ⟨h, hh⟩ := exists_f32val_of_f32IsFinite hfin1
  refine exec_dewpt_undefined ht hh ?_
  simpa [hfin0, hfin1, hh] using hdom

/-- Settles O28: a zero denominator makes the logarithm rational, hence a whole number, of which
only 4 leaves both operands in binary32. -/
theorem dewDenominatorZeroForOnePair : Obligations.DewDenominatorZeroForOnePair := by
  intro a b t h ha hb hpos
  refine ⟨realOfUnits_add_dewC_ne_zero t, ?_, ?_⟩
  · rw [sub_eq_zero, eq_comm, log10_eq_iff_pair ha hb hpos]
  · rintro s rfl rfl
    by_cases hpair : s.arg0 = 0x434CF000 ∧ s.arg1 = 0x49742400
    · exact ⟨_, exec_dewpt_undefined ha hb (.inr hpair), iff_of_true rfl hpair⟩
    · exact ⟨_, exec_dewpt_defined ha hb hpos hpair, iff_of_false (by simp) hpair⟩

/-- Settles O29: the condition over the real numbers is the model's test. -/
theorem dewptFollowsItsDomain : Obligations.DewptFollowsItsDomain := by
  refine ⟨decode_encode .dewpt, fun s => ⟨exec_dewpt_nonfinite, fun t h ht hh => ?_⟩⟩
  rw [dew_condition_iff ht hh]
  refine ⟨exec_dewpt_undefined ht hh, fun hdom => ?_⟩
  obtain ⟨hpos, hpair⟩ := not_or.1 hdom
  exact exec_dewpt_defined ht hh (not_le.1 hpos) hpair

/-! ### The rated range (R172, R176) -/

theorem dpTol_spec (n : Nat) :
    0 < Config.dpTol n ∧ Config.dpTol n ≤ 1 / 10 ∧
      DewPointConforms (Config.dpTol n) (Config.dpImpl n) :=
  (Config.dewPointUnit n).conforms.choose_spec

/-- `DEWPT` reports OK with the parameter's value alone (P1 of R172). -/
theorem res0_of_exec_dewpt_ok {s u : State} (hexec : exec .dewpt s = .next u) (hcode : u.code = 0) :
    u.res0 = Config.dpImpl s.dewUnit s.arg0 s.arg1 := by
  have hdomain : domainError s ≠ u := by
    rintro rfl
    exact absurd hcode (by simp [domainError, codeDomain])
  by_cases hfin : ∃ t h, f32val s.arg0 = .finite t ∧ f32val s.arg1 = .finite h
  · obtain ⟨t, h, ht, hh⟩ := hfin
    rw [exec, execDewpt_finite ht hh] at hexec
    split at hexec
    · exact absurd (Host.Outcome.next.inj hexec) hdomain
    · exact Host.Outcome.next.inj hexec ▸ rfl
  · rw [exec, execDewpt_nonfinite hfin] at hexec
    exact absurd (Host.Outcome.next.inj hexec) hdomain

/-- Rated operands are in the domain: their denominator is positive. -/
theorem exec_dewpt_rated {s : State} {t h : Int} (ht : f32val s.arg0 = .finite t)
    (hh : f32val s.arg1 = .finite h) (hr : Rated (realOfUnits t) (realOfUnits h)) :
    exec .dewpt s =
      .next { s with res0 := Config.dpImpl s.dewUnit s.arg0 s.arg1, code := 0 } := by
  have hpos : 0 < h := realOfUnits_pos_iff.1 hr.humidity_pos
  refine exec_dewpt_defined ht hh hpos fun hpair => ?_
  have hzero := (log10_eq_iff_pair ht hh hpos).2 hpair
  exact hr.dewDenominator_pos.ne' (sub_eq_zero.2 hzero.symm)

/-- Settles O30: what the block knows of its unit is the unit's contract. -/
theorem dewptIsAccurateWhenRated : Obligations.DewptIsAccurateWhenRated := by
  refine ⟨fun n => ?_, fun _ _ => res0_of_exec_dewpt_ok, fun s t h ht hh hr => ?_⟩
  · obtain ⟨hpos, hle, -⟩ := dpTol_spec n
    exact ⟨hpos, hle⟩
  · obtain ⟨-, -, hconforms⟩ := dpTol_spec s.dewUnit
    exact ⟨exec_dewpt_rated ht hh hr, hconforms _ _ t h ht hh hr⟩

/-- Item 3 of R176: at `RH = 100` the exact dew point is `T`. -/
theorem exec_dewpt_saturated {s : State} {t : Int} (ht : f32val s.arg0 = .finite t)
    (hh : s.arg1 = 0x42C80000) (hlo : -10 ≤ realOfUnits t) (hhi : realOfUnits t ≤ 60) :
    ∃ (r : Word) (d : Int), exec .dewpt s = .next { s with res0 := r, code := 0 } ∧
      f32val r = .finite d ∧ |realOfUnits d - realOfUnits t| ≤ Config.dpTol s.dewUnit ∧
      Config.dpTol s.dewUnit ≤ 1 / 10 := by
  have hh' : f32val s.arg1 = .finite (100 * 2 ^ 149) := by rw [hh]; decide
  have hRH : realOfUnits (100 * 2 ^ 149) = 100 := by norm_num [realOfUnits]
  have hr : Rated (realOfUnits t) (realOfUnits (100 * 2 ^ 149)) := by
    rw [hRH]
    exact ⟨by linarith, by linarith, by norm_num, by norm_num⟩
  obtain ⟨-, hle, hconforms⟩ := dpTol_spec s.dewUnit
  obtain ⟨d, hd, hnear⟩ := hconforms _ _ t _ ht hh' hr
  rw [hRH, dewExact_hundred] at hnear
  exact ⟨_, d, exec_dewpt_rated ht hh' hr, hd, hnear, hle⟩

/-- Settles O32: the dew point grows as the denominator falls; at `RH = 100` it is `T`. -/
theorem dewPointLawsInTheRatedRange : Obligations.DewPointLawsInTheRatedRange :=
  ⟨lt_dewDenominator_least, fun _ _ => dewDenominator_least, fun _ _ _ => dewExact_lt_of_temp_lt,
    fun _ _ _ => dewExact_lt_of_humidity_lt, fun _ _ => dewExact_compare,
    fun _ _ => exec_dewpt_saturated⟩

end Sys2Proof.Machine
end

section
/-! PROOFS. The control commands (R191, R192): what each leaves of the state, frame included. -/

namespace Sys2Proof.Machine

/-- Settles O6: `NOP` reports nothing, so the state it answers is the one it was given. -/
theorem nopChangesNothing : Obligations.NopChangesNothing := by
  refine ⟨decode_encode .nop, fun s => ?_⟩
  rw [exec, execNop]

/-- Settles O7: the report of OK writes `CODE` alone, after `STICKY` is cleared. -/
theorem statClrClearsSticky : Obligations.StatClrClearsSticky := by
  refine ⟨decode_encode .statClr, fun s => ?_⟩
  rw [exec, execStatClr, report_ok]

end Sys2Proof.Machine
end

section
/-! PROOFS. The exceptions (R200 to R207): an illegal word reports ILLEGAL; every command but `NOP`
ends in one report; and so `STICKY` remembers every error until it is cleared. -/

namespace Sys2Proof.Machine

/-! ### Illegal words (R203) -/

theorem reserved_of_ge_0xD {opc : BitVec 4} (h : 0xD ≤ opc.toNat) :
    opc = 0xD ∨ opc = 0xE ∨ opc = 0xF := by
  revert opc
  decide

/-- Settles O5: a word that decodes to no command is the report of ILLEGAL. -/
theorem illegalWordReportsIllegal : Obligations.IllegalWordReportsIllegal := by
  intro v s hreserved
  have hillegal : ∀ i, decode v ≠ .ok i :=
    (illegalWordsAreTheReservedOnes v).2 (hreserved.imp_right reserved_of_ge_0xD)
  cases hv : decode v with
  | ok i => exact absurd hv (hillegal i)
  | error e => exact execute_of_decode_error hv s

/-! ### One report for each command (R200, R201, R207) -/

/-- The codes a command of each kind may report: OK, CRC_ERR from a comparing command, DOMAIN from
an environmental one. -/
def MayReport (i : Instr) (c : BitVec 3) : Prop :=
  c = 0 ∨ (c = 1 ∧ i ∈ [.crcCmp, .crcChk1, .crcChk2, .measT, .measRh]) ∨
    (c = 3 ∧ i ∈ [.compRh, .dewpt])

theorem mayReport_ok (i : Instr) : MayReport i codeOk := .inl rfl

theorem mayReport_crcCodeOf {i : Instr} (hi : i ∈ [.crcCmp, .crcChk1, .crcChk2, .measT, .measRh])
    (computed expected : Byte) : MayReport i (crcCodeOf computed expected) := by
  unfold crcCodeOf
  split
  · exact mayReport_ok i
  · exact .inr (.inl ⟨rfl, hi⟩)

/-- Every effect but those of `NOP` and `STAT_CLR` is one report, of a code its command may report,
on a state whose `STICKY` is as it was. -/
theorem CommandEffect.eq_report {i : Instr} {f : State → State} (h : CommandEffect i f)
    (hnop : i ≠ .nop) (hclr : i ≠ .statClr) (s : State) :
    ∃ c u, f s = report c u ∧ MayReport i c ∧ u.sticky = s.sticky := by
  cases h with
  | nop => exact absurd rfl hnop
  | statClr => exact absurd rfl hclr
  | crcClr | crcByte | convert | result => exact ⟨_, _, rfl, mayReport_ok _, rfl⟩
  | check hcmd c e =>
    obtain rfl | rfl | rfl := hcmd
    all_goals exact ⟨_, _, rfl, mayReport_crcCodeOf (by simp) c e, rfl⟩
  | measure hcmd hfx w crc =>
    obtain rfl | rfl := hcmd
    all_goals exact ⟨_, _, rfl, mayReport_crcCodeOf (by simp) crc crc, rfl⟩
  | measureFails hcmd hne =>
    obtain rfl | rfl := hcmd
    all_goals exact ⟨_, _, rfl, mayReport_crcCodeOf (by simp) _ _, rfl⟩
  | domain hcmd =>
    obtain rfl | rfl := hcmd
    all_goals exact ⟨_, _, rfl, .inr (.inr ⟨rfl, by simp⟩), rfl⟩

/-- Settles O46: `STAT_CLR` reports OK, and the effect of any other command is one report, which
gives `CODE` and `STICKY`. -/
theorem everyCommandReportsOneCode : Obligations.EveryCommandReportsOneCode := by
  intro i s hnop
  by_cases hclr : i = .statClr
  · subst hclr
    obtain ⟨-, hexec⟩ := statClrClearsSticky
    exact ⟨_, hexec s, .inl rfl, rfl⟩
  · obtain ⟨f, hf, hexec⟩ := exec_effect i s
    obtain ⟨c, u, hreport, hcode, hsticky⟩ := hf.eq_report hnop hclr s
    refine ⟨report c u, (hexec s ⟨rfl, rfl, rfl, rfl⟩).trans (congrArg _ hreport), hcode, ?_⟩
    rw [if_neg hclr, report_sticky, report_code, hsticky]
    rfl

/-! ### `STICKY` remembers (R206) -/

/-- An error that `CODE` shows stands in `STICKY` too (R28). -/
def ErrorRemembered (s : State) : Prop := s.code ≠ 0 → s.sticky = true

/-- `STICKY` of `t` is that of `s`, or set by the error that `CODE` of `t` shows (R201). -/
def RemembersFrom (s t : State) : Prop := t.sticky = (s.sticky || t.code != 0)

theorem ErrorRemembered.code_eq {s : State} (h : ErrorRemembered s) (hsticky : s.sticky = false) :
    s.code = 0 := by
  by_contra hne
  simp [h hne] at hsticky

theorem RemembersFrom.errorRemembered {s t : State} (h : RemembersFrom s t) :
    ErrorRemembered t := fun hcode => by
  rw [h, bne_iff_ne.2 hcode, Bool.or_true]

theorem RemembersFrom.sticky_eq_false_iff {s t : State} (h : RemembersFrom s t) :
    t.sticky = false ↔ s.sticky = false ∧ t.code = 0 := by
  rw [h]
  simp

/-- No report comes between `s` and `t`: the error that `CODE` still shows was in `STICKY` before. -/
theorem ErrorRemembered.remembersFrom {s t : State} (hs : ErrorRemembered s)
    (hcode : t.code = s.code) (hsticky : t.sticky = s.sticky) : RemembersFrom s t := by
  rw [RemembersFrom, hcode, hsticky]
  by_cases h : s.code = 0
  · simp [h]
  · simp [hs h]

/-- A command word other than that of `STAT_CLR` never forgets: it leaves both fields (`NOP`) or
ends in a report. -/
theorem execute_remembers {v : Word} {s t : State} (hs : ErrorRemembered s)
    (hv : v ≠ encode .statClr) (h : execute v s = .next t) : RemembersFrom s t := by
  cases hdec : decode v with
  | error e =>
    rw [execute_of_decode_error hdec] at h
    cases h
    simp [RemembersFrom]
  | ok i =>
    rw [execute_of_decode_ok hdec] at h
    have hclr : i ≠ .statClr := by
      rintro rfl
      exact hv ((decodeAndEncodeAgree _ _).1 hdec)
    by_cases hnop : i = .nop
    · subst hnop
      cases h
      exact hs.remembersFrom rfl rfl
    · obtain ⟨u, hexec, -, hsticky⟩ := everyCommandReportsOneCode i s hnop
      cases hexec.symm.trans h
      rwa [if_neg hclr] at hsticky

theorem writeReg_remembers {r : HostReg} {v : Word} {s t : State} (hs : ErrorRemembered s)
    (hw : (r, v) ≠ (.cmd, encode .statClr)) (h : writeReg r v s = .next t) :
    RemembersFrom s t := by
  obtain ⟨rfl, hexec⟩ | ⟨-, rfl⟩ | ⟨-, rfl⟩ | ⟨-, rfl⟩ := writeReg_next h
  · exact execute_remembers hs (fun hv => hw (hv ▸ rfl)) hexec
  · exact hs.remembersFrom rfl rfl
  · exact hs.remembersFrom rfl rfl
  · exact hs.remembersFrom rfl rfl

/-- `CODE` is OK at the start and after each of the writes. -/
def NoErrorShown (writes : List (HostReg × Word)) (s : State) : Prop :=
  ∀ (done todo : List (HostReg × Word)) (u : State), writes = done ++ todo →
    afterWrites done s = .next u → u.code = 0

theorem NoErrorShown.code_eq {writes : List (HostReg × Word)} {s : State}
    (h : NoErrorShown writes s) : s.code = 0 := h [] writes s rfl rfl

theorem noErrorShown_nil {s : State} : NoErrorShown [] s ↔ s.code = 0 := by
  refine ⟨NoErrorShown.code_eq, fun hcode done todo u hsplit hrun => ?_⟩
  obtain ⟨rfl, -⟩ := List.append_eq_nil_iff.1 hsplit.symm
  cases hrun
  exact hcode

theorem noErrorShown_cons {r : HostReg} {v : Word} {s t : State} (h : writeReg r v s = .next t)
    (rest : List (HostReg × Word)) :
    NoErrorShown ((r, v) :: rest) s ↔ s.code = 0 ∧ NoErrorShown rest t := by
  constructor
  · intro hall
    refine ⟨hall.code_eq, fun done todo u hsplit hrun => ?_⟩
    exact hall ((r, v) :: done) todo u (congrArg _ hsplit) ((afterWrites_cons h done).trans hrun)
  · rintro ⟨hcode, hrest⟩ done todo u hsplit hrun
    cases done with
    | nil =>
      cases hrun
      exact hcode
    | cons w done =>
      obtain ⟨rfl, hsplit'⟩ := List.cons_eq_cons.1 hsplit
      exact hrest done todo u hsplit' ((afterWrites_cons h done).symm.trans hrun)

/-- By induction on the writes: `STICKY` ends 0 exactly when it began so and no error was shown. -/
theorem sticky_eq_false_iff_noErrorShown {writes : List (HostReg × Word)} {s t : State}
    (hs : ErrorRemembered s) (hclr : (.cmd, encode .statClr) ∉ writes)
    (hrun : afterWrites writes s = .next t) :
    t.sticky = false ↔ s.sticky = false ∧ NoErrorShown writes s := by
  induction writes generalizing s with
  | nil =>
    cases hrun
    rw [noErrorShown_nil]
    exact (and_iff_left_of_imp hs.code_eq).symm
  | cons w rest ih =>
    obtain ⟨r, v⟩ := w
    obtain ⟨hw, hrest⟩ := not_or.1 (mt List.mem_cons.2 hclr)
    obtain ⟨u, hwrite, -⟩ := writeReg_completes r v s
    have hu := writeReg_remembers hs (Ne.symm hw) hwrite
    rw [afterWrites_cons hwrite] at hrun
    rw [ih hu.errorRemembered hrest hrun, hu.sticky_eq_false_iff, noErrorShown_cons hwrite]
    exact ⟨fun ⟨⟨h0, _⟩, h⟩ => ⟨h0, hs.code_eq h0, h⟩, fun ⟨h0, _, h⟩ => ⟨⟨h0, h.code_eq⟩, h⟩⟩

/-- Settles O47: the start has `CODE` OK and `STICKY` 0. -/
theorem stickyRemembersEveryError : Obligations.StickyRemembersEveryError := by
  intro writes s t hsticky hcode hclr hrun
  have hs : ErrorRemembered s := fun hne => absurd hcode hne
  exact (sticky_eq_false_iff_noErrorShown hs hclr hrun).trans (and_iff_right hsticky)

end Sys2Proof.Machine
end

section
/-! PROOFS. Several blocks (R214): windows at bases of their own do not overlap, no step moves a
window, and a step of one block writes its own place in the list only. -/

namespace Sys2Proof.Machine

/-! ### Who owns an address (R50) -/

/-- The windows are the pages of 32 addresses, so an address names the page it is in. -/
theorem inWindow_baseAddr_iff {s : State} {a : Nat} :
    inWindow s.baseAddr a = true ↔ s.basePage = a / 32 := by
  simp only [inWindow, Bool.and_eq_true, decide_eq_true_eq]
  unfold State.baseAddr
  omega

theorem ownerOf_eq_some {p : Platform} (hp : Platform.windowsApart p) {i : Nat} {s : State}
    {a : Nat} (hs : p[i]? = some s) (ha : inWindow s.baseAddr a = true) :
    Platform.ownerOf p a = some i := by
  obtain ⟨hi, rfl⟩ := List.getElem?_eq_some_iff.1 hs
  refine List.findIdx?_eq_some_iff_getElem.2 ⟨hi, ha, fun j hji hj => ?_⟩
  have hpage : p[j].basePage = p[i].basePage :=
    (inWindow_baseAddr_iff.1 hj).trans (inWindow_baseAddr_iff.1 ha).symm
  exact hji.ne ((List.Nodup.getElem_inj_iff hp (hi := by simpa using hji.trans hi)
    (hj := by simpa using hi)).1 (by simpa using hpage))

/-! ### No step moves a window (R50) -/

theorem releaseReset_basePage (s : State) : (releaseReset s).basePage = s.basePage := by
  unfold releaseReset
  split <;> rfl

theorem step_keeps_basePage {s t : State} (h : step s = .next t) : t.basePage = s.basePage := by
  obtain ⟨-, rfl⟩ | ⟨e, rest, -, hevent⟩ := step_next h
  · rfl
  · obtain ⟨r, x, -, -, rfl⟩ | ⟨r, src, v, -, -, -, hwrite⟩ | ⟨rfl, -⟩ | ⟨-, rfl⟩ | ⟨-, rfl⟩ :=
      performEvent_next hevent
    · rfl
    · obtain ⟨u, hu, hpage, -⟩ := writeReg_completes r v { s with pending := rest }
      cases hu.symm.trans hwrite
      exact hpage
    · rfl
    · exact releaseReset_basePage _
    · rfl

/-! ### A step of one block (R214) -/

/-- What a step of one block can do: nothing where there is none, or that block's own step. -/
theorem stepBlock_next {p q : Platform} {i : Nat} (h : Platform.stepBlock p i = .next q) :
    q = p ∨ ∃ s t, p[i]? = some s ∧ step s = .next t ∧ q = p.set i t := by
  unfold Platform.stepBlock at h
  split at h
  · cases h
    exact .inl rfl
  · rename_i s hs
    split at h
    · rename_i t ht
      cases h
      exact .inr ⟨s, t, hs, ht, rfl⟩
    · cases h
    · cases h

/-- A block replaced by one with the same base leaves every base as it was. -/
theorem map_basePage_set {p : Platform} {i : Nat} {s t : State} (hs : p[i]? = some s)
    (hpage : t.basePage = s.basePage) :
    (p.set i t).map State.basePage = p.map State.basePage := by
  obtain ⟨hi, rfl⟩ := List.getElem?_eq_some_iff.1 hs
  rw [List.map_set, hpage, ← List.map_set, List.set_getElem_self]

/-- Settles O60: an address lies in one page, and a step writes one place of the list and keeps the
page there. -/
theorem blocksShareNothing : Obligations.BlocksShareNothing := by
  intro p i hp
  refine ⟨fun s a hs ha => ownerOf_eq_some hp hs ha, fun q hq => ?_⟩
  obtain rfl | ⟨s, t, hs, hstep, rfl⟩ := stepBlock_next hq
  · exact ⟨hp, rfl, fun _ _ => rfl⟩
  · refine ⟨?_, List.length_set, fun j hj => List.getElem?_set_ne (Ne.symm hj)⟩
    rw [Platform.windowsApart, map_basePage_set hs (step_keeps_basePage hstep)]
    exact hp

end Sys2Proof.Machine
end

section
/-! PROOFS. Reset (R230, R216): what each event does while reset is asserted, and which of them
leave the reset values. -/

namespace Sys2Proof.Machine

variable {s : State}

/-- R39 speaks of the block's fields alone, and those `resetBlock` sets. -/
theorem isResetState_resetBlock (s : State) : IsResetState (resetBlock s) := by
  simp [IsResetState, SameBlock, State.reset]

/-- Releasing an asserted reset resets the block and lowers the input (R230). -/
theorem performEvent_release_of_inReset (hr : s.inReset = true) :
    performEvent (.resetLine false) s = .next { resetBlock s with inReset := false } :=
  congrArg Host.Outcome.next (if_pos hr)

/-- While reset is asserted only the reset input and the power supply can do something (R230). -/
theorem performEvent_access_of_inReset {e : HostEvent} (hr : s.inReset = true)
    (hline : ∀ b, e ≠ .resetLine b) (hpower : e ≠ .powerUp) :
    performEvent e s = .fault .accessInReset := by
  cases e with
  | read width addr x => exact if_pos hr
  | write width addr src => exact if_pos hr
  | resetLine b => exact absurd rfl (hline b)
  | cmdWriteCutByReset v => exact if_pos hr
  | powerUp => exact absurd rfl hpower

/-- Outside reset, a reset wins over the `CMD` write it cuts off, whatever the word (R230). -/
theorem performEvent_cmdWriteCutByReset (hr : s.inReset = false) (v : Word) :
    performEvent (.cmdWriteCutByReset v) s = .next (assertReset s) :=
  if_neg (by simp [hr])

/-- Settles O44: asserting, releasing and power-up each reset the block and differ in the input's
level only, and the two ways to assert it are one state. -/
theorem resetWinsAndLeavesTheResetValues : Obligations.ResetWinsAndLeavesTheResetValues := by
  intro s
  refine ⟨⟨assertReset s, rfl, rfl, performEvent_cmdWriteCutByReset⟩, fun hr => ?_,
    powerUp s, rfl, isResetState_resetBlock s⟩
  have hstops : ∀ e : HostEvent, (∀ b, e ≠ .resetLine b) → e ≠ .powerUp →
      performEvent e s = .fault .accessInReset := fun _ => performEvent_access_of_inReset hr
  exact ⟨fun w a x => hstops _ nofun nofun, fun w a src => hstops _ nofun nofun,
    fun v => hstops _ nofun nofun, _, performEvent_release_of_inReset hr,
    isResetState_resetBlock s, rfl⟩

end Sys2Proof.Machine
end
